-- ==== Sys2Proof/Word.lean ====
section
/-! DEFINITION. The words of BITACC: the sink's packed unit (R12), the command word (R61), the count
operand (R13), the two bit orderings (R10) and the five operand carriers (R11). -/

namespace Sys2Proof

/-- The packed unit of the sink: one byte of 8 bits (R12). -/
abbrev Byte := BitVec 8

/-- The command word CMD168, `cmd[167:0]` (R61). -/
abbrev CmdWord := BitVec 168

/-- The count operand N, NW = 32 bits, unsigned (R13, R64). -/
abbrev Count := BitVec 32

/-- ORDER, the bit-ordering strategy: exactly two values (R10). -/
inductive Order where
  | msbFirst
  | lsbFirst
  deriving DecidableEq, Repr, Inhabited

/-- The carrier of an operand or of an accumulator: one of five widths, no other exists (R11, R90). -/
inductive Carrier where
  | w8
  | w16
  | w32
  | w64
  | w128
  deriving DecidableEq, Repr, Inhabited

/-- The width in bits of a carrier (R11). -/
def Carrier.width : Carrier → Nat
  | .w8 => 8
  | .w16 => 16
  | .w32 => 32
  | .w64 => 64
  | .w128 => 128

end Sys2Proof
end

