-- ==== Sys2Proof/Syntax.lean ====
section
/-! DEFINITION. The commands of BITACC, one constructor per row of spec/opcode_table.json (R60, R62, R63).
A signed operand is held as the W bits of its two's complement, which is how the command carries it (R65). -/

namespace Sys2Proof

inductive Instr where
  /-- WRITE_BIT bit (R110). -/
  | writeBit (bit : Bool)
  /-- WRITE.U8 bits, value (R111). -/
  | writeU8 (bits : Count) (value : BitVec 8)
  /-- WRITE.U16 bits, value (R111). -/
  | writeU16 (bits : Count) (value : BitVec 16)
  /-- WRITE.U32 bits, value (R111). -/
  | writeU32 (bits : Count) (value : BitVec 32)
  /-- WRITE.U64 bits, value (R111). -/
  | writeU64 (bits : Count) (value : BitVec 64)
  /-- WRITE.U128 bits, value (R111). -/
  | writeU128 (bits : Count) (value : BitVec 128)
  /-- WRITE_SIGNED.I8 bits, value (R125). -/
  | writeI8 (bits : Count) (value : BitVec 8)
  /-- WRITE_SIGNED.I16 bits, value (R125). -/
  | writeI16 (bits : Count) (value : BitVec 16)
  /-- WRITE_SIGNED.I32 bits, value (R125). -/
  | writeI32 (bits : Count) (value : BitVec 32)
  /-- WRITE_SIGNED.I64 bits, value (R125). -/
  | writeI64 (bits : Count) (value : BitVec 64)
  /-- WRITE_SIGNED.I128 bits, value (R125). -/
  | writeI128 (bits : Count) (value : BitVec 128)
  /-- WRITE_BYTES buf; N is the length of `buf` (R135, R66). -/
  | writeBytes (buf : List Byte)
  /-- WRITE_UNARY0 n (R145). -/
  | writeUnary0 (n : Count)
  /-- WRITE_UNARY1 n (R148). -/
  | writeUnary1 (n : Count)
  /-- BYTE_ALIGNED (R160). -/
  | byteAligned
  /-- BYTE_ALIGN (R161). -/
  | byteAlign
  /-- UNWRITTEN (R163). -/
  | unwritten
  /-- DISPOSE (R164). -/
  | dispose
  deriving DecidableEq, Repr

end Sys2Proof
end

