-- ==== Sys2Proof/WellFormed.lean ====
section
/-! DEFINITION. When a command record is well formed (R60). The types of Instr's operands carry every other
bound (a count below 2^32, a value of W bits), so one check is left: the length of a payload is the count N,
which has 32 bits (R60, R64, R66). -/

namespace Sys2Proof

def Instr.wf : Instr → Bool
  | .writeBytes buf => decide (buf.length < 2 ^ 32)
  | .writeBit _ => true
  | .writeU8 _ _ => true
  | .writeU16 _ _ => true
  | .writeU32 _ _ => true
  | .writeU64 _ _ => true
  | .writeU128 _ _ => true
  | .writeI8 _ _ => true
  | .writeI16 _ _ => true
  | .writeI32 _ _ => true
  | .writeI64 _ _ => true
  | .writeI128 _ _ => true
  | .writeUnary0 _ => true
  | .writeUnary1 _ => true
  | .byteAligned => true
  | .byteAlign => true
  | .unwritten => true
  | .dispose => true

end Sys2Proof
end

