-- ==== Sys2Proof/Decode.lean ====
section
/-! DEFINITION. From a command word and its payload to a command or a rejection by name, and back: the
fields of CMD168 (R61), the operation codes (R62), the width codes (R63), operand assembly (R64, R65, R66)
and the reserved encodings (R67, R68). -/

namespace Sys2Proof

/-- The five fields of CMD168 (R61). -/
structure Fields where
  op    : BitVec 4
  wtag  : BitVec 3
  rsv   : BitVec 1
  n     : BitVec 32
  value : BitVec 128
  deriving DecidableEq, Repr

/-- OP = cmd[3:0], WTAG = cmd[6:4], RSV = cmd[7], N = cmd[39:8], VALUE = cmd[167:40] (R61). -/
def fieldsOf (w : CmdWord) : Fields where
  op    := w.extractLsb' 0 4
  wtag  := w.extractLsb' 4 3
  rsv   := w.extractLsb' 7 1
  n     := w.extractLsb' 8 32
  value := w.extractLsb' 40 128

/-- The command word with these fields (R61). -/
def assemble (f : Fields) : CmdWord :=
  f.value ++ f.n ++ f.rsv ++ f.wtag ++ f.op

/-- Why a command word is no command (R68). -/
inductive Rejected where
  /-- RSV = 1. -/
  | reservedBit
  /-- OP is 0xA to 0xF. -/
  | reservedOp
  /-- WTAG is 5 to 7 where the operation uses it. -/
  | reservedWidth
  /-- A field the operation does not use is not zero, or VALUE has a bit set from W up. -/
  | unusedField
  /-- The payload handed to the decoder is not the one the word calls for: N bytes for OP = 0x3, none
  otherwise (R66). No encoding is at fault; the command channel never hands over such a payload. -/
  | payloadLength
  deriving DecidableEq, Repr

/-- What the decoder answers: every word is exactly one legal command or a reserved encoding (R68). -/
inductive Decoded where
  | legal (i : Instr)
  | reserved (r : Rejected)
  deriving DecidableEq, Repr

/-- WTAG 0 = 8 bits, 1 = 16, 2 = 32, 3 = 64, 4 = 128; 5, 6, 7 reserved (R63). -/
def carrierOf (wtag : BitVec 3) : Option Carrier :=
  match wtag with
  | 0#3 => some .w8
  | 1#3 => some .w16
  | 2#3 => some .w32
  | 3#3 => some .w64
  | 4#3 => some .w128
  | _ => none

/-- The width code of a carrier (R63). -/
def wtagOf : Carrier → BitVec 3
  | .w8 => 0
  | .w16 => 1
  | .w32 => 2
  | .w64 => 3
  | .w128 => 4

/-- WRITE with a carrier: the row WRITE.U<W> (R62, R63). -/
def writeInstr (c : Carrier) (n : Count) (v : BitVec 128) : Instr :=
  match c with
  | .w8 => .writeU8 n (v.setWidth 8)
  | .w16 => .writeU16 n (v.setWidth 16)
  | .w32 => .writeU32 n (v.setWidth 32)
  | .w64 => .writeU64 n (v.setWidth 64)
  | .w128 => .writeU128 n v

/-- WRITE_SIGNED with a carrier: the row WRITE_SIGNED.I<W> (R62, R63). -/
def writeSignedInstr (c : Carrier) (n : Count) (v : BitVec 128) : Instr :=
  match c with
  | .w8 => .writeI8 n (v.setWidth 8)
  | .w16 => .writeI16 n (v.setWidth 16)
  | .w32 => .writeI32 n (v.setWidth 32)
  | .w64 => .writeI64 n (v.setWidth 64)
  | .w128 => .writeI128 n v

/-- The operand of WRITE and WRITE_SIGNED: WTAG must name a carrier (R63), and VALUE[127:W] must be zero,
signed or not (R65). -/
def decodeSized (make : Carrier → Count → BitVec 128 → Instr) (f : Fields) : Decoded :=
  match carrierOf f.wtag with
  | none => .reserved .reservedWidth
  | some c =>
    if f.value.toNat < 2 ^ c.width then .legal (make c f.n f.value) else .reserved .unusedField

/-- A command that uses N and no other operand: WTAG and VALUE must be zero (R63, R65). -/
def decodeCounted (i : Instr) (f : Fields) : Decoded :=
  if f.wtag = 0 ∧ f.value = 0 then .legal i else .reserved .unusedField

/-- A command with no operand: WTAG, N and VALUE must be zero (R63, R64, R65). -/
def decodeBare (i : Instr) (f : Fields) : Decoded :=
  if f.wtag = 0 ∧ f.n = 0 ∧ f.value = 0 then .legal i else .reserved .unusedField

/-- WRITE_BIT: the operand is VALUE[0]; VALUE[127:1], WTAG and N must be zero (R65). -/
def decodeBit (f : Fields) : Decoded :=
  if f.wtag = 0 ∧ f.n = 0 ∧ f.value.toNat < 2 then .legal (.writeBit (f.value.getLsbD 0))
  else .reserved .unusedField

/-- The operation codes (R62), with RSV = 0 (R67). -/
def decodeFields (f : Fields) (payload : List Byte) : Decoded :=
  if f.rsv ≠ 0 then .reserved .reservedBit
  else match f.op with
    | 0x0#4 => decodeBit f
    | 0x1#4 => decodeSized writeInstr f
    | 0x2#4 => decodeSized writeSignedInstr f
    | 0x3#4 => decodeCounted (.writeBytes payload) f
    | 0x4#4 => decodeCounted (.writeUnary0 f.n) f
    | 0x5#4 => decodeCounted (.writeUnary1 f.n) f
    | 0x6#4 => decodeBare .byteAligned f
    | 0x7#4 => decodeBare .byteAlign f
    | 0x8#4 => decodeBare .unwritten f
    | 0x9#4 => decodeBare .dispose f
    | _ => .reserved .reservedOp

/-- How many payload bytes follow a command word: N if OP = 0x3, whether or not the word is a legal command,
and none otherwise (R61, R66, R68). -/
def payloadCount (w : CmdWord) : Nat :=
  if (fieldsOf w).op = 0x3 then (fieldsOf w).n.toNat else 0

/-- The decoder, total on every word and every list of bytes (R68). -/
def decode (w : CmdWord) (payload : List Byte) : Decoded :=
  if payload.length = payloadCount w then decodeFields (fieldsOf w) payload
  else .reserved .payloadLength

/-! The encoder, from the same tables. -/

/-- The operation code of a command (R62). -/
def opOf : Instr → BitVec 4
  | .writeBit _ => 0x0
  | .writeU8 _ _ => 0x1
  | .writeU16 _ _ => 0x1
  | .writeU32 _ _ => 0x1
  | .writeU64 _ _ => 0x1
  | .writeU128 _ _ => 0x1
  | .writeI8 _ _ => 0x2
  | .writeI16 _ _ => 0x2
  | .writeI32 _ _ => 0x2
  | .writeI64 _ _ => 0x2
  | .writeI128 _ _ => 0x2
  | .writeBytes _ => 0x3
  | .writeUnary0 _ => 0x4
  | .writeUnary1 _ => 0x5
  | .byteAligned => 0x6
  | .byteAlign => 0x7
  | .unwritten => 0x8
  | .dispose => 0x9

/-- The fields of a command's word; a signed operand stands in VALUE[W-1:0], zero above it (R61 to R67). -/
def fieldsFor (i : Instr) : Fields :=
  match i with
  | .writeBit b => ⟨opOf i, 0, 0, 0, (BitVec.ofBool b).setWidth 128⟩
  | .writeU8 n v => ⟨opOf i, wtagOf .w8, 0, n, v.setWidth 128⟩
  | .writeU16 n v => ⟨opOf i, wtagOf .w16, 0, n, v.setWidth 128⟩
  | .writeU32 n v => ⟨opOf i, wtagOf .w32, 0, n, v.setWidth 128⟩
  | .writeU64 n v => ⟨opOf i, wtagOf .w64, 0, n, v.setWidth 128⟩
  | .writeU128 n v => ⟨opOf i, wtagOf .w128, 0, n, v⟩
  | .writeI8 n v => ⟨opOf i, wtagOf .w8, 0, n, v.setWidth 128⟩
  | .writeI16 n v => ⟨opOf i, wtagOf .w16, 0, n, v.setWidth 128⟩
  | .writeI32 n v => ⟨opOf i, wtagOf .w32, 0, n, v.setWidth 128⟩
  | .writeI64 n v => ⟨opOf i, wtagOf .w64, 0, n, v.setWidth 128⟩
  | .writeI128 n v => ⟨opOf i, wtagOf .w128, 0, n, v⟩
  | .writeBytes buf => ⟨opOf i, 0, 0, BitVec.ofNat 32 buf.length, 0⟩
  | .writeUnary0 n => ⟨opOf i, 0, 0, n, 0⟩
  | .writeUnary1 n => ⟨opOf i, 0, 0, n, 0⟩
  | .byteAligned => ⟨opOf i, 0, 0, 0, 0⟩
  | .byteAlign => ⟨opOf i, 0, 0, 0, 0⟩
  | .unwritten => ⟨opOf i, 0, 0, 0, 0⟩
  | .dispose => ⟨opOf i, 0, 0, 0, 0⟩

/-- The command word of a command (R61). -/
def encodeWord (i : Instr) : CmdWord := assemble (fieldsFor i)

/-- The payload that follows the word, `payload[0]` first; only WRITE_BYTES has one (R66). -/
def payloadOf : Instr → List Byte
  | .writeBytes buf => buf
  | .writeBit _ => []
  | .writeU8 _ _ => []
  | .writeU16 _ _ => []
  | .writeU32 _ _ => []
  | .writeU64 _ _ => []
  | .writeU128 _ _ => []
  | .writeI8 _ _ => []
  | .writeI16 _ _ => []
  | .writeI32 _ _ => []
  | .writeI64 _ _ => []
  | .writeI128 _ _ => []
  | .writeUnary0 _ => []
  | .writeUnary1 _ => []
  | .byteAligned => []
  | .byteAlign => []
  | .unwritten => []
  | .dispose => []

/-- A command as it is sent: its word and its payload (R61, R66). -/
def encode (i : Instr) : CmdWord × List Byte := (encodeWord i, payloadOf i)

/-- The command word that the number `w` of `nbits` bits stands for; every bit from `nbits` up is 0. -/
def tableWord (nbits w : Nat) : CmdWord := BitVec.ofNat 168 (w % 2 ^ nbits)

/-- The payload of zeros that goes with a word of the opcode table. -/
def zeroPayload (w : CmdWord) : List Byte := List.replicate (payloadCount w) 0

/-- The command the decoder reads from a word numbered as spec/opcode_table.json numbers it: bit 0 of `w` is
cmd[0], and a payload, if the word calls for one, is of zeros. -/
def decodeTableWord (nbits w : Nat) : Option Instr :=
  match decode (tableWord nbits w) (zeroPayload (tableWord nbits w)) with
  | .legal i => some i
  | .reserved _ => none

end Sys2Proof
end

