-- ==== Sys2Proof/Machine/Accumulator.lean ====
section
/-! DEFINITION. The accumulator type and its operations (R90 to R98). All arithmetic is on unbounded natural
numbers (R17). Push, pop and seeding are partial: outside their preconditions they have no value (R97). -/

namespace Sys2Proof.Machine

/-- An accumulator A = (C, len, val) (R90). -/
structure Acc where
  carrier : Carrier
  len     : Nat
  val     : Nat
  deriving DecidableEq, Repr

/-- `push(A, n, v)`: under MSB_FIRST (R92) and under LSB_FIRST (R93). -/
def push (o : Order) (a : Acc) (n v : Nat) : Option Acc :=
  if a.len + n ≤ a.carrier.width ∧ v < 2 ^ n then
    match o with
    | .msbFirst => some ⟨a.carrier, a.len + n, a.val * 2 ^ n + v⟩
    | .lsbFirst => some ⟨a.carrier, a.len + n, a.val + v * 2 ^ a.len⟩
  else none

/-- `pop(A, n)`: the value popped and what is left, under MSB_FIRST (R94) and under LSB_FIRST (R95). -/
def pop (o : Order) (a : Acc) (n : Nat) : Option (Nat × Acc) :=
  if n ≤ a.len then
    match o with
    | .msbFirst => some (a.val / 2 ^ (a.len - n), ⟨a.carrier, a.len - n, a.val % 2 ^ (a.len - n)⟩)
    | .lsbFirst => some (a.val % 2 ^ n, ⟨a.carrier, a.len - n, a.val / 2 ^ n⟩)
  else none

/-- Seeding the wide accumulator: W <- (WC, bits, value), with bits ≤ WC and value < 2^bits (R98). -/
def seed (c : Carrier) (bits value : Nat) : Option Acc :=
  if bits ≤ c.width ∧ value < 2 ^ bits then some ⟨c, bits, value⟩ else none

end Sys2Proof.Machine
end

