-- ==== Sys2Proof/Config.lean ====
section
/-! DEFINITION. What the spec leaves as parameters (the type of the sink's failure information and the width of the
field that carries it) and the free values: the sink's answers, and the accumulator's content after a sink
failure. -/

namespace Sys2Proof

/-- The default of ERRW, which is the spec's own (R15). -/
abbrev Config.defaultErrWidth : Nat := 8

/-- PARAMETER. ERRW, the width in bits of the field ERRINFO (R15, D25). It is opaque: no proof can see a value, so a
claim holds for every ERRW. What stands after `:=` is the default of the spec, which evaluation outside the kernel
takes (assumption 3). -/
opaque Config.errWidth : Nat := Config.defaultErrWidth

/-- The content of the field ERRINFO, ERRW bits (R70, R15). -/
abbrev ErrInfo := BitVec Config.errWidth

/-- PARAMETER. SinkErr, the type of the failure information that a byte sink reports, opaque (R15, D25). -/
opaque SinkErr : Type

/-- PARAMETER. How an `e : SinkErr` stands in ERRINFO (R15; assumption 3). -/
opaque Config.errInfo : SinkErr → ErrInfo

/-- What a sink whose failure information is of type `ε` answers to one transaction (R41): `ok`, or `fail e`, after
which it has taken an unspecified first part of the bytes presented, `taken` of them or all if there are fewer
(R43). -/
inductive AnswerOf (ε : Type) where
  | ok
  | fail (e : ε) (taken : Nat)
  deriving DecidableEq, Repr, Inhabited

/-- An answer as it comes to the block on the SINK channel, the failure information as the bits of ERRINFO (D2,
R15). -/
abbrev SinkAnswer := AnswerOf ErrInfo

/-- The sink's answer as the block receives it. -/
def AnswerOf.received : AnswerOf SinkErr → SinkAnswer
  | .ok => .ok
  | .fail e taken => .fail (Config.errInfo e) taken

/-- FREE VALUE. The sink's answer to a transaction for which State lists none: an oracle draw, one per
draw number; nothing in the block determines it (R41, U6; assumption 1). -/
opaque Config.freeAnswer : Nat → AnswerOf SinkErr

/-- FREE VALUE. PLEN after a sink failure: any value (R207 (e), U1; assumption 2). -/
opaque Config.freePlen : Nat → BitVec 4

/-- FREE VALUE. PVAL after a sink failure: any value (R207 (e), U1; assumption 2). -/
opaque Config.freePval : Nat → BitVec 8

end Sys2Proof
end

