-- ==== Sys2Proof/Machine/State.lean ====
section
/-! DEFINITION. The state of BITACC (R20 to R35), its three channels (R32, D2) and the model's own counter of
draws, as plain data; the reasons a step can stop; reset. -/

namespace Sys2Proof.Machine

/-- The status of a response (R70, R200): 0 = OK, 1 = INVALID_INPUT, 2 = SINK_FAILURE; 3 is never produced. -/
inductive Status where
  | ok
  | invalidInput
  | sinkFailure
  deriving DecidableEq, Repr

/-- The response word RSP by its fields: STATUS, RDATA of 12 bits, ERRINFO of ERRW bits, ERRW a parameter (R70,
R15; assumption 17). -/
structure Response where
  status  : Status
  rdata   : BitVec 12
  errinfo : ErrInfo
  deriving DecidableEq, Repr

/-- One sink transaction as it went (R41 to R44): the bytes presented, in order, and what became of them. -/
inductive Txn where
  /-- The sink answered `ok`: it has taken all the bytes (R42). -/
  | accepted (bytes : List Byte)
  /-- The sink answered `fail e` and has taken the first `taken` of the bytes (R43). -/
  | failed (bytes : List Byte) (e : ErrInfo) (taken : Nat)
  /-- A reset came while the transaction was in flight; the sink has taken the first `taken` bytes (R226). -/
  | abandoned (bytes : List Byte) (taken : Nat)
  deriving DecidableEq, Repr

/-- The SINK channel: the transactions so far, oldest first (R42, R44); the answers that the sink will give
to the next transactions, an input of the machine (R32, R41); and how many free values have been drawn, the
model's own counter (assumption 1). -/
structure Sink where
  txns   : List Txn
  script : List SinkAnswer
  draws  : Nat
  deriving DecidableEq, Repr

/-- What arrives at the block from outside, in order (D2, R60, R225): the beats of the CMD channel and the
reset events. -/
inductive Input where
  /-- A command word (R61). -/
  | word (w : CmdWord)
  /-- A payload byte (R66). -/
  | byte (b : Byte)
  /-- The reset event Reset(order) between two commands (R225). -/
  | reset (o : Order)
  /-- The reset event Reset(order) during the command that comes next, after `answered` of that command's
  transactions have been answered, and with `taken` bytes of the one in flight taken by the sink (R226, U13). -/
  | strike (o : Order) (answered taken : Nat)
  deriving DecidableEq, Repr

/-- The whole state. -/
structure State where
  /-- ORDER, one bit, the order strap sampled at the last reset (R20). -/
  order  : Order
  /-- PLEN, 4 bits: how many bits are pending (R21). -/
  plen   : BitVec 4
  /-- PVAL, 8 bits: the pending bits, packed (R22). -/
  pval   : BitVec 8
  /-- FAILED, one bit, sticky (R25). -/
  failed : Bool
  /-- The SINK channel (R41, R42). -/
  sink   : Sink
  /-- The RSP channel: the responses given so far, oldest first (R70, R229). -/
  rsps   : List Response
  /-- The CMD channel and the reset line: what is still to come, next first (R60, R66, R225). -/
  inputs : List Input
  deriving DecidableEq, Repr

/-- The step stops because the caller broke the form in which a command is delivered (R66). The spec gives the
block no behaviour there, no command of the opcode table is concerned, and stopping is safe. -/
inductive Fault where
  /-- Raised by `step`: a payload byte stands where a command word is due. Safe. -/
  | strayPayloadByte
  /-- Raised by `step`: a command word stands where a payload byte is due. Safe. -/
  | payloadCutShort
  deriving DecidableEq, Repr

/-- The step gives no meaning. -/
inductive Refusal where
  /-- Raised by `exec` for an instruction that has no meaning yet. Safe. -/
  | notModelled (mnemonic : String)
  /-- Raised by the commands that pack bits: a push or a pop would be outside its precondition, for which the
  spec gives no behaviour (R97, U3, U4). It takes a state with PLEN above 7 or PVAL not below 2^PLEN and
  FAILED = 0, which no run reaches. Safe. -/
  | accumulatorPrecondition
  deriving DecidableEq, Repr

/-- The machine right after Reset(order) with a sink just attached (R33, R34, R228): nothing pending, FAILED =
0, an empty sink log, no response given and nothing to come. -/
def State.resetWith (o : Order) : State where
  order  := o
  plen   := 0
  pval   := 0
  failed := false
  sink   := ⟨[], [], 0⟩
  rsps   := []
  inputs := []

/-- The machine right after reset. ORDER has no default (R34): MSB_FIRST stands here by DESIGN CHOICE
(assumption 4). -/
def State.reset : State := State.resetWith .msbFirst

end Sys2Proof.Machine
end

