-- ==== Sys2Proof/Machine/Flags.lean ====
section
/-! DEFINITION. The predicates computed from state (R29, R96). BITACC has no condition codes; its one stored
flag, FAILED, is set by `State.takeSinkFailure` and cleared by `State.resetBlock`, both in Ops.lean. -/

namespace Sys2Proof.Machine

/-- `is_full(A)`: len = C (R96). -/
def Acc.isFull (a : Acc) : Bool := a.len == a.carrier.width

/-- `is_empty(A)`: len = 0 (R96). -/
def Acc.isEmpty (a : Acc) : Bool := a.len == 0

/-- The room of A: C - len (R96). -/
def Acc.room (a : Acc) : Nat := a.carrier.width - a.len

/-- The partial-byte accumulator P = (8, PLEN, PVAL) (R18). -/
def State.part (s : State) : Acc := ⟨.w8, s.plen.toNat, s.pval.toNat⟩

/-- `byte_aligned()`: is_empty(P) (R29, R160). -/
def State.aligned (s : State) : Bool := s.part.isEmpty

end Sys2Proof.Machine
end

