-- ==== Sys2Proof/Machine/Operands.lean ====
section
/-! DEFINITION. Operands: the fit tests (R111, R125), two's-complement packing (R126), the pattern of a unary
run and its carrier (R146), the bytes a popped value stands for, and the fields of results (R71). -/

namespace Sys2Proof.Machine

/-- `ones(k)` = 2^k - 1 (R17). -/
def ones (k : Nat) : Nat := 2 ^ k - 1

/-- The validation of WRITE: not `bits > W`, and not `bits < W and value >= 2^bits` (R111). -/
def fitsUnsigned (c : Carrier) (bits value : Nat) : Bool :=
  if bits > c.width then false
  else if bits < c.width ∧ value ≥ 2 ^ bits then false
  else true

/-- The validation of WRITE_SIGNED: not `bits > W`, not `bits = 0` (R127), and not `bits < W` with the value
outside [-2^(bits-1), 2^(bits-1)) (R125). -/
def fitsSigned (c : Carrier) (bits : Nat) (value : Int) : Bool :=
  if bits > c.width then false
  else if bits = 0 then false
  else if bits < c.width ∧ (value < -(2 ^ (bits - 1) : Int) ∨ value ≥ (2 ^ (bits - 1) : Int)) then false
  else true

/-- Two's-complement packing: u = value mod 2^bits (R126, R102). -/
def packSigned (bits : Nat) (value : Int) : Nat := (value % (2 ^ bits : Int)).toNat

/-- The carrier of the internal write of a unary run of m bits, 1 ≤ m ≤ 64 (R146). -/
def unaryCarrier (m : Nat) : Carrier := if m ≤ 31 then .w32 else .w64

/-- The pattern of a unary run of m bits: all ones or all zeros (R145, R148). -/
def runPattern (fill : Bool) (m : Nat) : Nat := if fill then ones m else 0

/-- How many whole chunks of 64 bits precede the last part of a unary run of n bits: none up to 64, and
(n - 1) div 64 beyond (R147). -/
def unaryChunks (n : Nat) : Nat := (n - 1) / 64

/-- One bit as a value. -/
def bitValue (b : Bool) : Nat := if b then 1 else 0

/-- Conversion to the 8-bit packed unit: the low 8 bits of a value (R101). -/
def byteOf (v : Nat) : Byte := BitVec.ofNat 8 v

/-- Does the command pass its validation (R111, R125)? The other commands have none (R203). -/
def fits : Instr → Bool
  | .writeU8 n v => fitsUnsigned .w8 n.toNat v.toNat
  | .writeU16 n v => fitsUnsigned .w16 n.toNat v.toNat
  | .writeU32 n v => fitsUnsigned .w32 n.toNat v.toNat
  | .writeU64 n v => fitsUnsigned .w64 n.toNat v.toNat
  | .writeU128 n v => fitsUnsigned .w128 n.toNat v.toNat
  | .writeI8 n v => fitsSigned .w8 n.toNat v.toInt
  | .writeI16 n v => fitsSigned .w16 n.toNat v.toInt
  | .writeI32 n v => fitsSigned .w32 n.toNat v.toInt
  | .writeI64 n v => fitsSigned .w64 n.toNat v.toInt
  | .writeI128 n v => fitsSigned .w128 n.toNat v.toInt
  | .writeBit _ => true
  | .writeBytes _ => true
  | .writeUnary0 _ => true
  | .writeUnary1 _ => true
  | .byteAligned => true
  | .byteAlign => true
  | .unwritten => true
  | .dispose => true

/-- The code of a status (R70). -/
def Status.code : Status → BitVec 2
  | .ok => 0
  | .invalidInput => 1
  | .sinkFailure => 2

/-- The layout of a response word for an ERRINFO of `errw` bits: rsp[1:0] = STATUS, rsp[13:2] = RDATA,
rsp[13+ERRW:14] = ERRINFO (R70). -/
def responseWord {errw : Nat} (status : Status) (rdata : BitVec 12) (errinfo : BitVec errw) :
    BitVec (errw + 12 + 2) :=
  errinfo ++ rdata ++ status.code

/-- The response word of the block (R70). -/
def Response.word (r : Response) : BitVec (Config.errWidth + 12 + 2) :=
  responseWord r.status r.rdata r.errinfo

/-- RDATA of BYTE_ALIGNED: RDATA[0] is the answer, the rest zero (R71). -/
def alignedRdata (answer : Bool) : BitVec 12 := (BitVec.ofBool answer).setWidth 12

/-- RDATA of UNWRITTEN: RDATA[3:0] = PLEN, RDATA[11:4] = PVAL (R71). -/
def unwrittenRdata (plen : BitVec 4) (pval : BitVec 8) : BitVec 12 := pval ++ plen

/-- The order strap: 0 = MSB_FIRST, 1 = LSB_FIRST (R10). -/
def orderOfStrap (strap : BitVec 1) : Order := if strap = 0 then .msbFirst else .lsbFirst

end Sys2Proof.Machine
end

