-- ==== Sys2Proof/Machine/Ops.lean ====
section
/-! DEFINITION. The shared operations over the state: sink transactions (R41 to R44), completing a command,
the two error kinds and the refusal after a failure (R200 to R209), the reset event (R225, R226). BITACC has
no trap mechanism: what an exception is elsewhere is here the error a command is answered with. There is no
return instruction (R209); the way back from a sink failure is the reset event. -/

namespace Sys2Proof.Machine

/-! The sink. -/

/-- The bytes of a transaction that the sink has taken (R42, R43, R226). -/
def Txn.taken : Txn → List Byte
  | .accepted bytes => bytes
  | .failed bytes _ k => bytes.take k
  | .abandoned bytes k => bytes.take k

/-- The sink log: all bytes the sink has accepted, in the order accepted (R42). -/
def Sink.log (k : Sink) : List Byte := k.txns.flatMap Txn.taken

/-- The sink log of a state (R42). -/
def State.log (s : State) : List Byte := s.sink.log

/-- The sink's answer to the transaction that is presented now: the next of the script, or a free value where
the script is at its end (R41, U6). -/
def Sink.answer (k : Sink) : SinkAnswer :=
  match k.script with
  | [] => (Config.freeAnswer k.draws).received
  | a :: _ => a

/-- The sink once a transaction is over. -/
def Sink.record (k : Sink) (t : Txn) : Sink where
  txns   := k.txns ++ [t]
  script := k.script.tail
  draws  := if k.script.isEmpty then k.draws + 1 else k.draws

/-- One transaction, `SinkWrite(bytes)`: the sink after it, and the error it answered, if it failed (R41). -/
def sinkWrite (bytes : List Byte) (k : Sink) : Sink × Option ErrInfo :=
  match k.answer with
  | .ok => (k.record (.accepted bytes), none)
  | .fail e taken => (k.record (.failed bytes e taken), some e)

/-- The transactions of one command, in order, up to the first that fails; nothing is presented after it
(R202, R207 (c)). -/
def present : List (List Byte) → Sink → Sink × Option ErrInfo
  | [], k => (k, none)
  | bytes :: rest, k =>
    match sinkWrite bytes k with
    | (k', none) => present rest k'
    | (k', some e) => (k', some e)

/-! Answers to a command. -/

/-- The command is answered with this response. -/
def State.respond (s : State) (r : Response) : State := { s with rsps := s.rsps ++ [r] }

/-- PLEN and PVAL are written from an accumulator. -/
def State.setPart (s : State) (a : Acc) : State :=
  { s with plen := BitVec.ofNat 4 a.len, pval := BitVec.ofNat 8 a.val }

/-- `raise InvalidInput`: precise, no effect; STATUS = 1, RDATA = 0, ERRINFO = 0 (R206). -/
def State.takeInvalidInput (s : State) : State := s.respond ⟨.invalidInput, 0, 0⟩

/-- `raise SinkFailure(e)`: FAILED is set, PLEN and PVAL become free values, STATUS = 2, RDATA = 0, ERRINFO = e;
the sink stays as the failing transaction left it (R207). -/
def State.takeSinkFailure (s : State) (k : Sink) (e : ErrInfo) : State :=
  { s with
    failed := true
    plen := Config.freePlen k.draws
    pval := Config.freePval k.draws
    sink := { k with draws := k.draws + 1 }
    rsps := s.rsps ++ [⟨.sinkFailure, 0, e⟩] }

/-- The refusal while FAILED = 1: STATUS = 2, RDATA = 0, ERRINFO = 0, nothing else changes (R208). -/
def State.refuseFailed (s : State) : State := s.respond ⟨.sinkFailure, 0, 0⟩

/-- The command's transactions are presented; if none fails, P is written and the command answered OK with
`rdata`, else the command ends in SinkFailure (R56, R207). -/
def State.complete (s : State) (ts : List (List Byte)) (p : Acc) (rdata : BitVec 12) : State :=
  match present ts s.sink with
  | (k, none) => ({ s with sink := k }.setPart p).respond ⟨.ok, rdata, 0⟩
  | (k, some e) => s.takeSinkFailure k e

/-- The first check of every command: the refusal while FAILED = 1 ranks above all else (R205, R208). -/
def State.unlessFailed (s : State) (run : Host.Outcome State Fault Refusal) :
    Host.Outcome State Fault Refusal :=
  if s.failed then .next s.refuseFailed else run

/-- The answer to a reserved encoding: the refusal if FAILED = 1, else InvalidInput (R68, R205). -/
def State.rejectReserved (s : State) : State :=
  if s.failed then s.refuseFailed else s.takeInvalidInput

/-! Reset. -/

/-- The reset event Reset(order): ORDER from the strap, P empty, FAILED = 0; no transaction, no response, the
sink log untouched (R225, R226). -/
def State.resetBlock (s : State) (o : Order) : State :=
  { s with order := o, plen := 0, pval := 0, failed := false }

/-- Of a command's transactions, those that stand when a reset comes after `answered` of them have been
answered: these, and the one then in flight, of which the sink has taken an unspecified first part (R226). -/
def cutTxns (answered taken : Nat) (ts : List Txn) : List Txn :=
  ts.take answered ++
    match ts.drop answered with
    | [] => []
    | .accepted bytes :: _ => [.abandoned bytes taken]
    | .failed bytes _ _ :: _ => [.abandoned bytes taken]
    | .abandoned bytes _ :: _ => [.abandoned bytes taken]

/-- The reset event during a command: `s` is the state in which the command started and `t` the one it would
have reached. The command is abandoned without a response; of its transactions those answered stand, and the
one in flight is cut; the block is as after Reset(order) (R225, R226, U13). -/
def State.strikeReset (s t : State) (o : Order) (answered taken : Nat) : State :=
  { s with
    sink := { txns := s.sink.txns ++ cutTxns answered taken (t.sink.txns.drop s.sink.txns.length)
              script := s.sink.script.drop
                (min answered (t.sink.txns.length - s.sink.txns.length))
              draws := t.sink.draws } }.resetBlock o

end Sys2Proof.Machine
end

