-- ==== Sys2Proof/Machine/Pack.lean ====
section
/-! DEFINITION. The packing datapath (R112, R113): what one command emits and what it leaves in P, as a pure
function of ORDER, P and the operands (R26). The bytes are those that are emitted if no transaction fails; each
is a transaction of its own (R44), and `State.complete` presents them up to the first failure. -/

namespace Sys2Proof.Machine

/-- What a datapath does: the bytes it emits, in order, and P after it. -/
structure Emission where
  bytes : List Byte
  part  : Acc
  deriving DecidableEq, Repr

/-- One datapath after another, on the P the first one leaves. -/
def Emission.andThen (e : Option Emission) (next : Acc → Option Emission) : Option Emission :=
  match e with
  | none => none
  | some e1 =>
    match next e1.part with
    | none => none
    | some e2 => some ⟨e1.bytes ++ e2.bytes, e2.part⟩

/-- `if is_full(P): emit(pop(P, 8))` (R110, R113). -/
def emitIfFull (o : Order) (p : Acc) : Option Emission :=
  if p.isFull then
    match pop o p 8 with
    | none => none
    | some (b, p') => some ⟨[byteOf b], p'⟩
  else some ⟨[], p⟩

/-- The body of WRITE_BIT: push one bit, emit the byte if P is full (R110). -/
def writeBitPath (o : Order) (b : Bool) (p : Acc) : Option Emission :=
  match push o p 1 (bitValue b) with
  | none => none
  | some p' => emitIfFull o p'

/-- `while W.len >= 8: emit(pop(W, 8))`, for the given number of rounds: the bytes and what is left of W
(R113). -/
def drainBytes (o : Order) : Nat → Acc → Option (List Byte × Acc)
  | 0, w => some ([], w)
  | rounds + 1, w =>
    match pop o w 8 with
    | none => none
    | some (b, w') =>
      match drainBytes o rounds w' with
      | none => none
      | some (bs, w'') => some (byteOf b :: bs, w'')

/-- The fill step: the `min(8 - PLEN, W.len)` bits nearest the front of W go to P, and P is emitted if that
fills it; also what is left of W (R113). -/
def fillStep (o : Order) (w p : Acc) : Option (Emission × Acc) :=
  match pop o w (min p.room w.len) with
  | none => none
  | some (v, w') =>
    match push o p (min p.room w.len) v with
    | none => none
    | some p' =>
      match emitIfFull o p' with
      | none => none
      | some e => some (e, w')

/-- The carry step: what is left of W, fewer than 8 bits, is pushed into P (R113). -/
def carryStep (o : Order) (w p : Acc) : Option Acc :=
  match pop o w w.len with
  | none => none
  | some (v, _) => push o p w.len v

/-- `pack`, slow path: seed W, fill P, drain W by whole bytes, carry the rest over (R113). -/
def packSlow (o : Order) (c : Carrier) (bits value : Nat) (p : Acc) : Option Emission :=
  match seed c bits value with
  | none => none
  | some w =>
    match fillStep o w p with
    | none => none
    | some (e, w') =>
      match drainBytes o (w'.len / 8) w' with
      | none => none
      | some (bs, w'') =>
        match carryStep o w'' e.part with
        | none => none
        | some p' => some ⟨e.bytes ++ bs, p'⟩

/-- `pack(WC, bits, value)`: the fast path if `bits` is smaller than the room in P, else the slow path
(R112). -/
def pack (o : Order) (c : Carrier) (bits value : Nat) (p : Acc) : Option Emission :=
  if bits < p.room then
    match push o p bits value with
    | none => none
    | some p' => some ⟨[], p'⟩
  else packSlow o c bits value p

/-- A command that packs bits: each byte it emits is a transaction of one byte (R44). Outside the
preconditions of push and pop there is no meaning (R97). -/
def State.runPath (s : State) (e : Option Emission) : Host.Outcome State Fault Refusal :=
  match e with
  | none => .refused .accumulatorPrecondition
  | some e => .next (s.complete (e.bytes.map (fun b => [b])) e.part 0)

end Sys2Proof.Machine
end

