-- ==== Sys2Proof/Machine/Align.lean ====
section
/-! DEFINITION. BYTE_ALIGNED, BYTE_ALIGN, UNWRITTEN, DISPOSE (R160 to R165). -/

namespace Sys2Proof.Machine

/-- BYTE_ALIGNED: RDATA[0] = 1 if PLEN = 0, else 0 (R160). -/
def execByteAligned (s : State) : Host.Outcome State Fault Refusal :=
  s.unlessFailed (.next (s.respond ⟨.ok, alignedRdata s.aligned, 0⟩))

/-- `while PLEN != 0: WRITE_BIT 0`, for at most the given number of rounds (R161). -/
def alignLoop (o : Order) : Nat → Acc → Option Emission
  | 0, p => if p.isEmpty then some ⟨[], p⟩ else none
  | rounds + 1, p =>
    if p.isEmpty then some ⟨[], p⟩
    else Emission.andThen (writeBitPath o false p) (alignLoop o rounds)

/-- BYTE_ALIGN: zero bits one at a time until P is empty (R161). From PLEN ≤ 7 at most seven bits are
written, so eight rounds never run out. -/
def execByteAlign (s : State) : Host.Outcome State Fault Refusal :=
  s.unlessFailed (s.runPath (alignLoop s.order 8 s.part))

/-- UNWRITTEN: RDATA = (PLEN, PVAL); a read that changes nothing (R163). -/
def execUnwritten (s : State) : Host.Outcome State Fault Refusal :=
  s.unlessFailed (.next (s.respond ⟨.ok, unwrittenRdata s.plen s.pval, 0⟩))

/-- DISPOSE: the pending bits are discarded; no transaction (R164). -/
def execDispose (s : State) : Host.Outcome State Fault Refusal :=
  s.unlessFailed (.next ({ s with plen := 0, pval := 0 }.respond ⟨.ok, 0, 0⟩))

end Sys2Proof.Machine
end

