-- ==== Sys2Proof/Machine/Unary.lean ====
section
/-! DEFINITION. WRITE_UNARY0 and WRITE_UNARY1 (R145 to R148). -/

namespace Sys2Proof.Machine

/-- The chunks of 64 run bits (R147). -/
def chunksPath (o : Order) (fill : Bool) : Nat → Acc → Option Emission
  | 0, p => some ⟨[], p⟩
  | k + 1, p => Emission.andThen (pack o .w64 64 (runPattern fill 64) p) (chunksPath o fill k)

/-- The last part of the run, m ≤ 64 bits: nothing for m = 0, else one internal write (R146). -/
def remainderPath (o : Order) (fill : Bool) (m : Nat) (p : Acc) : Option Emission :=
  if m = 0 then some ⟨[], p⟩ else pack o (unaryCarrier m) m (runPattern fill m) p

/-- A unary run: n bits equal to `fill`, chunked, then one terminating bit of the other kind (R145, R148). -/
def unaryPath (o : Order) (fill : Bool) (n : Nat) (p : Acc) : Option Emission :=
  Emission.andThen
    (Emission.andThen (chunksPath o fill (unaryChunks n) p)
      (remainderPath o fill (n - 64 * unaryChunks n)))
    (writeBitPath o (!fill))

/-- WRITE_UNARY0 n: n one-bits, then a zero-bit (R145). -/
def execWriteUnary0 (n : Count) (s : State) : Host.Outcome State Fault Refusal :=
  s.unlessFailed (s.runPath (unaryPath s.order true n.toNat s.part))

/-- WRITE_UNARY1 n: n zero-bits, then a one-bit (R148). -/
def execWriteUnary1 (n : Count) (s : State) : Host.Outcome State Fault Refusal :=
  s.unlessFailed (s.runPath (unaryPath s.order false n.toNat s.part))

end Sys2Proof.Machine
end

