-- ==== Sys2Proof/Machine/Write.lean ====
section
/-! DEFINITION. WRITE with each of its five carriers (R111). -/

namespace Sys2Proof.Machine

/-- WRITE.U<W> bits, value: validate, then pack (R111). -/
def writeUnsigned (c : Carrier) (bits value : Nat) (s : State) : Host.Outcome State Fault Refusal :=
  s.unlessFailed
    (if fitsUnsigned c bits value then s.runPath (pack s.order c bits value s.part)
     else .next s.takeInvalidInput)

/-- WRITE.U8 (R111). -/
def execWriteU8 (bits : Count) (value : BitVec 8) (s : State) : Host.Outcome State Fault Refusal :=
  writeUnsigned .w8 bits.toNat value.toNat s

/-- WRITE.U16 (R111). -/
def execWriteU16 (bits : Count) (value : BitVec 16) (s : State) : Host.Outcome State Fault Refusal :=
  writeUnsigned .w16 bits.toNat value.toNat s

/-- WRITE.U32 (R111). -/
def execWriteU32 (bits : Count) (value : BitVec 32) (s : State) : Host.Outcome State Fault Refusal :=
  writeUnsigned .w32 bits.toNat value.toNat s

/-- WRITE.U64 (R111). -/
def execWriteU64 (bits : Count) (value : BitVec 64) (s : State) : Host.Outcome State Fault Refusal :=
  writeUnsigned .w64 bits.toNat value.toNat s

/-- WRITE.U128 (R111). -/
def execWriteU128 (bits : Count) (value : BitVec 128) (s : State) : Host.Outcome State Fault Refusal :=
  writeUnsigned .w128 bits.toNat value.toNat s

end Sys2Proof.Machine
end

