-- ==== Sys2Proof/Machine/WriteBit.lean ====
section
/-! DEFINITION. WRITE_BIT (R110). -/

namespace Sys2Proof.Machine

/-- WRITE_BIT: "push 1 bit into the partial accumulator; if it becomes full (8 bits), pop and emit that byte to
the sink" (R110). -/
def execWriteBit (b : Bool) (s : State) : Host.Outcome State Fault Refusal :=
  s.unlessFailed (s.runPath (writeBitPath s.order b s.part))

end Sys2Proof.Machine
end

