-- ==== Sys2Proof/Machine/WriteBytes.lean ====
section
/-! DEFINITION. WRITE_BYTES (R135, R136). -/

namespace Sys2Proof.Machine

/-- The unaligned path: `pack(8, 8, buf[i])` for each byte in order (R136). -/
def bytesPath (o : Order) : List Byte → Acc → Option Emission
  | [], p => some ⟨[], p⟩
  | b :: rest, p => Emission.andThen (pack o .w8 8 b.toNat p) (bytesPath o rest)

/-- The transactions of the aligned path: the whole buffer in one, and none for an empty buffer (R135, R138). -/
def wholeBuffer (buf : List Byte) : List (List Byte) := if buf.isEmpty then [] else [buf]

/-- WRITE_BYTES: the alignment is tested once, at the start; aligned, the whole buffer is one transaction and P
is not touched (R135), else each byte is packed (R136). -/
def execWriteBytes (buf : List Byte) (s : State) : Host.Outcome State Fault Refusal :=
  s.unlessFailed
    (if s.aligned then .next (s.complete (wholeBuffer buf) s.part 0)
     else s.runPath (bytesPath s.order buf s.part))

end Sys2Proof.Machine
end

