-- ==== Sys2Proof/Machine/WriteSigned.lean ====
section
/-! DEFINITION. WRITE_SIGNED with each of its five carriers (R125). -/

namespace Sys2Proof.Machine

/-- WRITE_SIGNED.I<W> bits, value: validate, then pack the two's complement in one pass (R125, R126, R128). -/
def writeSigned (c : Carrier) (bits : Nat) (value : Int) (s : State) : Host.Outcome State Fault Refusal :=
  s.unlessFailed
    (if fitsSigned c bits value then s.runPath (pack s.order c bits (packSigned bits value) s.part)
     else .next s.takeInvalidInput)

/-- WRITE_SIGNED.I8 (R125); the operand is `sext_8` of its container (R65). -/
def execWriteI8 (bits : Count) (value : BitVec 8) (s : State) : Host.Outcome State Fault Refusal :=
  writeSigned .w8 bits.toNat value.toInt s

/-- WRITE_SIGNED.I16 (R125). -/
def execWriteI16 (bits : Count) (value : BitVec 16) (s : State) : Host.Outcome State Fault Refusal :=
  writeSigned .w16 bits.toNat value.toInt s

/-- WRITE_SIGNED.I32 (R125). -/
def execWriteI32 (bits : Count) (value : BitVec 32) (s : State) : Host.Outcome State Fault Refusal :=
  writeSigned .w32 bits.toNat value.toInt s

/-- WRITE_SIGNED.I64 (R125). -/
def execWriteI64 (bits : Count) (value : BitVec 64) (s : State) : Host.Outcome State Fault Refusal :=
  writeSigned .w64 bits.toNat value.toInt s

/-- WRITE_SIGNED.I128 (R125). -/
def execWriteI128 (bits : Count) (value : BitVec 128) (s : State) : Host.Outcome State Fault Refusal :=
  writeSigned .w128 bits.toNat value.toInt s

end Sys2Proof.Machine
end

