-- ==== Sys2Proof/Machine/Dispatch.lean ====
section
/-! DEFINITION. One arm per command of the opcode table. -/

namespace Sys2Proof.Machine

def exec (i : Instr) (s : State) : Host.Outcome State Fault Refusal :=
  match i with
  | .writeBit b => Sys2Proof.Machine.execWriteBit b s
  | .writeU8 n v => Sys2Proof.Machine.execWriteU8 n v s
  | .writeU16 n v => Sys2Proof.Machine.execWriteU16 n v s
  | .writeU32 n v => Sys2Proof.Machine.execWriteU32 n v s
  | .writeU64 n v => Sys2Proof.Machine.execWriteU64 n v s
  | .writeU128 n v => Sys2Proof.Machine.execWriteU128 n v s
  | .writeI8 n v => Sys2Proof.Machine.execWriteI8 n v s
  | .writeI16 n v => Sys2Proof.Machine.execWriteI16 n v s
  | .writeI32 n v => Sys2Proof.Machine.execWriteI32 n v s
  | .writeI64 n v => Sys2Proof.Machine.execWriteI64 n v s
  | .writeI128 n v => Sys2Proof.Machine.execWriteI128 n v s
  | .writeBytes buf => Sys2Proof.Machine.execWriteBytes buf s
  | .writeUnary0 n => Sys2Proof.Machine.execWriteUnary0 n s
  | .writeUnary1 n => Sys2Proof.Machine.execWriteUnary1 n s
  | .byteAligned => Sys2Proof.Machine.execByteAligned s
  | .byteAlign => Sys2Proof.Machine.execByteAlign s
  | .unwritten => Sys2Proof.Machine.execUnwritten s
  | .dispose => Sys2Proof.Machine.execDispose s

end Sys2Proof.Machine
end

