-- ==== Sys2Proof/Machine/Channel.lean ====
section
/-! DEFINITION. Taking the next command from the CMD channel (R60, R61, R66), and running it (R68, R205). -/

namespace Sys2Proof.Machine

/-- What comes of gathering the payload of a command word (R66). -/
inductive Gathered where
  /-- All N bytes are present. -/
  | all (payload : List Byte) (rest : List Input)
  /-- Nothing more has arrived yet. -/
  | short
  /-- A reset event comes before the payload is complete. -/
  | cut (o : Order) (rest : List Input)
  /-- A command word stands where a payload byte is due. -/
  | broken
  deriving DecidableEq, Repr

/-- One more byte in front of what is gathered. -/
def Gathered.cons (b : Byte) : Gathered → Gathered
  | .all payload rest => .all (b :: payload) rest
  | .short => .short
  | .cut o rest => .cut o rest
  | .broken => .broken

/-- The next n payload bytes, in order (R66). -/
def gather : Nat → List Input → Gathered
  | 0, rest => .all [] rest
  | _ + 1, [] => .short
  | n + 1, .byte b :: rest => (gather n rest).cons b
  | _ + 1, .word _ :: _ => .broken
  | _ + 1, .reset o :: rest => .cut o rest
  | _ + 1, .strike o _ _ :: rest => .cut o rest

/-- What stands at the head of the inputs. -/
inductive Fetched where
  /-- No input: the block waits for the caller (R28). -/
  | idle
  /-- A command word whose payload is not all there: the command does not start (R66). -/
  | waiting
  /-- A command with its payload, what follows it, and the reset that comes during it, if one does. -/
  | command (w : CmdWord) (payload : List Byte) (rest : List Input)
  /-- A reset event between commands, or one that cuts off a command not yet started. -/
  | reset (o : Order) (rest : List Input)
  /-- A payload byte where a command word is due. -/
  | stray
  /-- A command word where a payload byte is due. -/
  | broken
  deriving DecidableEq, Repr

/-- The next command of the channel: the word and exactly N payload bytes if OP = 0x3 (R61, R66). A reset
during the next command is looked at by `step` before this is asked; where no command follows it, it is a
reset between commands. -/
def fetch : List Input → Fetched
  | [] => .idle
  | .byte _ :: _ => .stray
  | .reset o :: rest => .reset o rest
  | .strike o _ _ :: rest => .reset o rest
  | .word w :: rest =>
    match gather (payloadCount w) rest with
    | .all payload rest' => .command w payload rest'
    | .short => .waiting
    | .cut o rest' => .reset o rest'
    | .broken => .broken

/-- A command word is answered: the legal command it encodes is run, a reserved encoding is rejected; in both
the refusal while FAILED = 1 comes first (R68, R205). -/
def runWord (w : CmdWord) (payload : List Byte) (s : State) : Host.Outcome State Fault Refusal :=
  match decode w payload with
  | .legal i => exec i s
  | .reserved _ => .next s.rejectReserved

/-- A command during which a reset comes: it runs as far as the reset lets it (R226). -/
def runStruck (w : CmdWord) (payload : List Byte) (o : Order) (answered taken : Nat) (s : State) :
    Host.Outcome State Fault Refusal :=
  match runWord w payload s with
  | .next t => .next (s.strikeReset t o answered taken)
  | .fault r => .fault r
  | .refused r => .refused r

/-- The step of a machine with these inputs, when no reset comes during the next command. -/
def stepPlain (s : State) : Host.Outcome State Fault Refusal :=
  match fetch s.inputs with
  | .idle => .next s
  | .waiting => .next s
  | .command w payload rest => runWord w payload { s with inputs := rest }
  | .reset o rest => .next ({ s with inputs := rest }.resetBlock o)
  | .stray => .fault .strayPayloadByte
  | .broken => .fault .payloadCutShort

/-- The step of a machine when a reset comes during the next command, whose beats are `later`; where no whole
command follows, the reset is one between commands (R225, R226). -/
def stepStruck (o : Order) (answered taken : Nat) (later : List Input) (s : State) :
    Host.Outcome State Fault Refusal :=
  match fetch later with
  | .command w payload rest => runStruck w payload o answered taken { s with inputs := rest }
  | .idle => .next ({ s with inputs := later }.resetBlock o)
  | .waiting => .next ({ s with inputs := later }.resetBlock o)
  | .reset _ _ => .next ({ s with inputs := later }.resetBlock o)
  | .stray => .next ({ s with inputs := later }.resetBlock o)
  | .broken => .next ({ s with inputs := later }.resetBlock o)

/-- One step of the block: the next command, or the next reset event; a step for each command (R232, D1). -/
def stepInputs (s : State) : Host.Outcome State Fault Refusal :=
  match s.inputs with
  | .strike o answered taken :: later => stepStruck o answered taken later s
  | [] => stepPlain s
  | .word _ :: _ => stepPlain s
  | .byte _ :: _ => stepPlain s
  | .reset _ :: _ => stepPlain s

/-- The beats of a command: its word, then its payload (R61, R66). -/
def beatsOf (w : CmdWord) (payload : List Byte) : List Input :=
  .word w :: payload.map Input.byte

/-- A command is put on the CMD channel, in front of all that is still to come. -/
def State.offer (s : State) (w : CmdWord) (payload : List Byte) : State :=
  { s with inputs := beatsOf w payload ++ s.inputs }

end Sys2Proof.Machine
end

