-- ==== Sys2Proof/Machine/Step.lean ====
section
/-! DEFINITION. The step of the machine, and the state with a given command next on the CMD channel. -/

namespace Sys2Proof.Machine

/-- One step: one command answered, or one reset event; a step with nothing to do changes nothing (D1, R28). -/
def step (s : State) : Host.Outcome State Fault Refusal := stepInputs s

/-- The command word that `w` stands for, bit 0 of `w` being cmd[0], with a payload of zeros if it calls for
one, is put where step takes its next command (assumption 7). -/
def State.withFetchWord (s : State) (nbits w : Nat) : State :=
  s.offer (tableWord nbits w) (zeroPayload (tableWord nbits w))

end Sys2Proof.Machine
end

