-- ==== Sys2Proof/Machine/Stream.lean ====
section
/-! DEFINITION. The spec's own views of what is written: the order of a value's bits in the stream (R48), of the
stream's bits in a sink byte (R49), the queue an accumulator holds (R91), and `pack` in closed form (R115).
The step function uses none of these; claims are stated with them. -/

namespace Sys2Proof.Machine

/-- `seq(ORDER, bits, value)`: the bits of a value in the order in which they enter the stream (R48). -/
def seq (o : Order) (bits value : Nat) : List Bool :=
  match o with
  | .msbFirst => (List.range bits).map (fun i => value.testBit (bits - 1 - i))
  | .lsbFirst => (List.range bits).map (fun i => value.testBit i)

/-- The stream bits that sink bytes carry, in stream order: the first is bit 7 of its byte under MSB_FIRST and
bit 0 under LSB_FIRST (R49). -/
def bytesBits (o : Order) (bytes : List Byte) : List Bool := bytes.flatMap (fun b => seq o 8 b.toNat)

/-- The queue an accumulator holds, the front first: under MSB_FIRST the front is bit len - 1 of `val`, under
LSB_FIRST it is bit 0 (R91). -/
def Acc.queue (o : Order) (a : Acc) : List Bool := seq o a.len a.val

/-- The pending bits of a state, the oldest first (R22, R91). -/
def State.pending (s : State) : List Bool := s.part.queue s.order

/-- `pack` as arithmetic on the packed values (R115). -/
def packArith (o : Order) (bits value : Nat) (p : Acc) : Emission :=
  let t := 8 - p.len
  let m := bits - t
  match o with
  | .msbFirst =>
    if bits < t then ⟨[], ⟨.w8, p.len + bits, p.val * 2 ^ bits + value⟩⟩
    else
      ⟨byteOf (p.val * 2 ^ t + value / 2 ^ m) ::
          (List.range (m / 8)).map (fun j => byteOf (value % 2 ^ m / 2 ^ (m - 8 * (j + 1)) % 256)),
        ⟨.w8, m % 8, value % 2 ^ m % 2 ^ (m % 8)⟩⟩
  | .lsbFirst =>
    if bits < t then ⟨[], ⟨.w8, p.len + bits, p.val + value * 2 ^ p.len⟩⟩
    else
      ⟨byteOf (p.val + value % 2 ^ t * 2 ^ p.len) ::
          (List.range (m / 8)).map (fun j => byteOf (value / 2 ^ t / 2 ^ (8 * j) % 256)),
        ⟨.w8, m % 8, value / 2 ^ t / 2 ^ (8 * (m / 8))⟩⟩

end Sys2Proof.Machine
end

