-- ==== Sys2Proof/Machine/Companion.lean ====
section
/-! DEFINITION. The companion software, outside the hardware (R6, R175 to R194): the counting backend, the
recorder with its playback, and Huffman writing, as pure agents beside the block. No part of State is theirs
and `step` calls none of this. Their operations are the eight of the write contract; UNWRITTEN and DISPOSE are
none of them. -/

namespace Sys2Proof.Machine

/-! What the write contract asks of a backend. -/

/-- Is the command one of the eight operations of the write contract, WRITE_BIT to BYTE_ALIGN? -/
def inContract : Instr → Bool
  | .unwritten => false
  | .dispose => false
  | .writeBit _ => true
  | .writeU8 _ _ => true
  | .writeU16 _ _ => true
  | .writeU32 _ _ => true
  | .writeU64 _ _ => true
  | .writeU128 _ _ => true
  | .writeI8 _ _ => true
  | .writeI16 _ _ => true
  | .writeI32 _ _ => true
  | .writeI64 _ _ => true
  | .writeI128 _ _ => true
  | .writeBytes _ => true
  | .writeUnary0 _ => true
  | .writeUnary1 _ => true
  | .byteAligned => true
  | .byteAlign => true

/-- The number of bits an operation nominally writes, at a stream of `total` bits (R176). -/
def nominalBits (total : Nat) : Instr → Nat
  | .writeBit _ => 1
  | .writeU8 n _ => n.toNat
  | .writeU16 n _ => n.toNat
  | .writeU32 n _ => n.toNat
  | .writeU64 n _ => n.toNat
  | .writeU128 n _ => n.toNat
  | .writeI8 n _ => n.toNat
  | .writeI16 n _ => n.toNat
  | .writeI32 n _ => n.toNat
  | .writeI64 n _ => n.toNat
  | .writeI128 n _ => n.toNat
  | .writeBytes buf => 8 * buf.length
  | .writeUnary0 n => n.toNat + 1
  | .writeUnary1 n => n.toNat + 1
  | .byteAligned => 0
  | .byteAlign => (8 - total % 8) % 8
  | .unwritten => 0
  | .dispose => 0

/-- The stream bits that an operation adds, at a stream of `total` bits (R48, R126, R51, R145, R148, R161). -/
def opBits (o : Order) (total : Nat) : Instr → List Bool
  | .writeBit b => [b]
  | .writeU8 n v => seq o n.toNat v.toNat
  | .writeU16 n v => seq o n.toNat v.toNat
  | .writeU32 n v => seq o n.toNat v.toNat
  | .writeU64 n v => seq o n.toNat v.toNat
  | .writeU128 n v => seq o n.toNat v.toNat
  | .writeI8 n v => seq o n.toNat (packSigned n.toNat v.toInt)
  | .writeI16 n v => seq o n.toNat (packSigned n.toNat v.toInt)
  | .writeI32 n v => seq o n.toNat (packSigned n.toNat v.toInt)
  | .writeI64 n v => seq o n.toNat (packSigned n.toNat v.toInt)
  | .writeI128 n v => seq o n.toNat (packSigned n.toNat v.toInt)
  | .writeBytes buf => bytesBits o buf
  | .writeUnary0 n => List.replicate n.toNat true ++ [false]
  | .writeUnary1 n => List.replicate n.toNat false ++ [true]
  | .byteAligned => []
  | .byteAlign => List.replicate ((8 - total % 8) % 8) false
  | .unwritten => []
  | .dispose => []

/-- The stream that a call sequence writes from a stream of `total` bits on: the bits of each call in order,
none for a call that is rejected (R19, R206). -/
def streamOfCalls (o : Order) (total : Nat) : List Instr → List Bool
  | [] => []
  | i :: rest =>
    let bits := if fits i then opBits o total i else []
    bits ++ streamOfCalls o (total + bits.length) rest

/-- How a backend answers one operation. -/
inductive Reply (σ : Type) where
  /-- Status OK. -/
  | done (after : σ)
  /-- An error kind, and the backend after it. -/
  | error (after : σ) (kind : Status)
  /-- The spec gives the operation no meaning here: it is not of the contract, a total would pass its width
  (R180, U2), a symbol is absent from its table (U12), or the block answers no next state. -/
  | unmodelled
  deriving DecidableEq, Repr

/-! The numeric total, which a counting writer and a recorder both hold (R175, R183). -/

/-- A total of `cw` bits after one operation, which adds the bits nominally written (R176); none if it would need
more than `cw` bits, where the spec gives it no value (R180). -/
def advance (cw total : Nat) (i : Instr) : Option Nat :=
  if total + nominalBits total i < 2 ^ cw then some (total + nominalBits total i) else none

/-! The counting backend. -/

/-- A counting writer: one numeric total (R175). -/
structure Counter where
  total : Nat
  deriving DecidableEq, Repr

/-- A counting writer when it is created: its total is 0 (R175). -/
def Counter.fresh : Counter := ⟨0⟩

/-- `byte_aligned()` of a counting writer (R178). -/
def Counter.byteAligned (c : Counter) : Bool := c.total % 8 == 0

/-- The comparison of two counters compares their totals (R179). -/
def Counter.compare (a b : Counter) : Ordering := Ord.compare a.total b.total

/-- One operation on a counting writer whose total has `cw` bits: the block's validation, then the total grows
by the bits nominally written (R176, R177). A total that would need more than `cw` bits has no meaning (R180). -/
def Counter.issue (cw : Nat) (c : Counter) (i : Instr) : Reply Counter :=
  if !inContract i then .unmodelled
  else if !fits i then .error c .invalidInput
  else
    match advance cw c.total i with
    | some total => .done ⟨total⟩
    | none => .unmodelled

/-! The block as a backend. -/

/-- The status the last command was answered with. -/
def State.lastStatus (s : State) : Status :=
  match s.rsps.getLast? with
  | some r => r.status
  | none => .ok

/-- One operation on the block. -/
def issueBlock (s : State) (i : Instr) : Reply State :=
  match exec i s with
  | .next t => if t.lastStatus = .ok then .done t else .error t t.lastStatus
  | .fault _ => .unmodelled
  | .refused _ => .unmodelled

/-! The recording backend. -/

/-- A write record: a kind and, for the two value kinds, a carrier, with the concrete value (R184, C6). -/
inductive WriteRecord where
  | bit (b : Bool)
  | unsigned (c : Carrier) (bits : Count) (value : BitVec c.width)
  | signed (c : Carrier) (bits : Count) (value : BitVec c.width)
  | bytes (buf : List Byte)
  deriving DecidableEq, Repr

/-- A recorder: a total, as a counting writer holds it, and an append-only log of write records (R183). -/
structure Recorder where
  total : Nat
  log   : List WriteRecord
  deriving DecidableEq, Repr

/-- A recorder when it is created: total 0 and an empty log (R175, R183). -/
def Recorder.fresh : Recorder := ⟨0, []⟩

/-- `byte_aligned()` of a recorder (R185). -/
def Recorder.byteAligned (r : Recorder) : Bool := r.total % 8 == 0

/-- The `write` of m bits of a unary run, on a carrier. -/
def runRecord (c : Carrier) (fill : Bool) (m : Nat) : WriteRecord :=
  .unsigned c (BitVec.ofNat 32 m) (BitVec.ofNat c.width (runPattern fill m))

/-- The `write` and `write_bit` calls that a unary operation expands to (R145 to R148, R185). -/
def unaryRecords (fill : Bool) (n : Nat) : List WriteRecord :=
  List.replicate (unaryChunks n) (runRecord .w64 fill 64) ++
    (if n - 64 * unaryChunks n = 0 then []
     else [runRecord (unaryCarrier (n - 64 * unaryChunks n)) fill (n - 64 * unaryChunks n)]) ++
    [.bit (!fill)]

/-- The records that an operation appends, on a recorder with this total; those the contract defines by
expansion are recorded as the calls they expand to (R185). -/
def recordsOf (total : Nat) : Instr → List WriteRecord
  | .writeBit b => [.bit b]
  | .writeU8 n v => [.unsigned .w8 n v]
  | .writeU16 n v => [.unsigned .w16 n v]
  | .writeU32 n v => [.unsigned .w32 n v]
  | .writeU64 n v => [.unsigned .w64 n v]
  | .writeU128 n v => [.unsigned .w128 n v]
  | .writeI8 n v => [.signed .w8 n v]
  | .writeI16 n v => [.signed .w16 n v]
  | .writeI32 n v => [.signed .w32 n v]
  | .writeI64 n v => [.signed .w64 n v]
  | .writeI128 n v => [.signed .w128 n v]
  | .writeBytes buf => [.bytes buf]
  | .writeUnary0 n => unaryRecords true n.toNat
  | .writeUnary1 n => unaryRecords false n.toNat
  | .byteAligned => []
  | .byteAlign => List.replicate ((8 - total % 8) % 8) (.bit false)
  | .unwritten => []
  | .dispose => []

/-- One operation on a recorder whose total has `cw` bits: no fit-validation; the log and the total grow (R185,
R186). A total that would need more than `cw` bits has no meaning, as on a counting writer (R183, R180). -/
def Recorder.issue (cw : Nat) (r : Recorder) (i : Instr) : Reply Recorder :=
  if !inContract i then .unmodelled
  else
    match advance cw r.total i with
    | some total => .done ⟨total, r.log ++ recordsOf r.total i⟩
    | none => .unmodelled

/-- The operation a record is replayed as (R188). -/
def WriteRecord.toInstr : WriteRecord → Instr
  | .bit b => .writeBit b
  | .unsigned .w8 n v => .writeU8 n v
  | .unsigned .w16 n v => .writeU16 n v
  | .unsigned .w32 n v => .writeU32 n v
  | .unsigned .w64 n v => .writeU64 n v
  | .unsigned .w128 n v => .writeU128 n v
  | .signed .w8 n v => .writeI8 n v
  | .signed .w16 n v => .writeI16 n v
  | .signed .w32 n v => .writeI32 n v
  | .signed .w64 n v => .writeI64 n v
  | .signed .w128 n v => .writeI128 n v
  | .bytes buf => .writeBytes buf

/-- Operations issued one after another on a backend, up to the first that is not answered OK (R188, R192). -/
def issueUntilError {σ : Type} (issue : σ → Instr → Reply σ) : List Instr → σ → Reply σ
  | [], s => .done s
  | i :: rest, s =>
    match issue s i with
    | .done s' => issueUntilError issue rest s'
    | .error s' kind => .error s' kind
    | .unmodelled => .unmodelled

/-- `playback(target)`: the records in their original order, up to the first failure, which is its result. The
recorder is read and not changed, so it may be played back again (R188, R189). -/
def Recorder.playback {σ : Type} (r : Recorder) (issue : σ → Instr → Reply σ) (target : σ) : Reply σ :=
  issueUntilError issue (r.log.map WriteRecord.toInstr) target

/-! Huffman writing. -/

/-- An encode table: symbol to an ordered list of steps (bit-length, packed value). The symbol type and the carrier
HW of a step are the caller's choice (R16, R191, D27). That the table is a list of rows, of which the first with a
symbol counts, is the model's form (assumption 15). -/
structure EncodeTable (Sym : Type) where
  hw   : Carrier
  rows : List (Sym × List (Count × BitVec hw.width))
  deriving Repr

/-- The commands of `WRITE_HUFFMAN table, symbol`: one WRITE.U<HW> per step, in order; none for a symbol the
table does not hold (R73, R192, U12). -/
def EncodeTable.commands {Sym : Type} [DecidableEq Sym] (t : EncodeTable Sym) (symbol : Sym) : Option (List Instr) :=
  (t.rows.lookup symbol).map
    (fun steps => steps.map (fun st => (WriteRecord.unsigned t.hw st.1 st.2).toInstr))

/-- `write_huffman(table, symbol)` on any backend (R192, R193). -/
def writeHuffman {σ Sym : Type} [DecidableEq Sym] (t : EncodeTable Sym) (symbol : Sym)
    (issue : σ → Instr → Reply σ) (s : σ) : Reply σ :=
  match t.commands symbol with
  | none => .unmodelled
  | some is => issueUntilError issue is s

/-! Call sequences, in which a call that fails does not keep the caller from the next one. -/

/-- A call sequence on the block: commands issued one at a time, whatever they are answered (R229, R209). -/
def runAll : List Instr → State → Host.Outcome State Fault Refusal
  | [], s => .next s
  | i :: rest, s =>
    match exec i s with
    | .next t => runAll rest t
    | .fault r => .fault r
    | .refused r => .refused r

/-- The same call sequence on a counting writer: the statuses answered and the writer after it; no value where
the counting writer has no meaning. -/
def countAll (cw : Nat) : List Instr → Counter → Option (List Status × Counter)
  | [], c => some ([], c)
  | i :: rest, c =>
    match c.issue cw i with
    | .done c' => (countAll cw rest c').map (fun r => (.ok :: r.1, r.2))
    | .error c' kind => (countAll cw rest c').map (fun r => (kind :: r.1, r.2))
    | .unmodelled => none

/-- The same call sequence on a recorder whose total has `cw` bits. -/
def recordAll (cw : Nat) : List Instr → Recorder → Option Recorder
  | [], r => some r
  | i :: rest, r =>
    match r.issue cw i with
    | .done r' => recordAll cw rest r'
    | .error r' _ => recordAll cw rest r'
    | .unmodelled => none

end Sys2Proof.Machine
end

