-- ==== Sys2Proof/Safety.lean ====
section
/-! DEFINITION. What claims are stated in terms of: the invariant of the state, a sink that answers `ok`, what
a command answered OK does to the channels, and a block just reset. -/

namespace Sys2Proof.Machine

/-- The invariant of a command boundary: while FAILED = 0, 0 ≤ PLEN ≤ 7 and PVAL < 2^PLEN (R21, R23). -/
abbrev State.Inv (s : State) : Prop :=
  s.failed = false → s.plen.toNat ≤ 7 ∧ s.pval.toNat < 2 ^ s.plen.toNat

/-- The block is ready for a command: FAILED = 0 and the invariant holds. -/
abbrev State.Ready (s : State) : Prop :=
  s.failed = false ∧ s.plen.toNat ≤ 7 ∧ s.pval.toNat < 2 ^ s.plen.toNat

/-- The sink's answer to the transaction number j from now on, as long as those before it are accepted: from the
script, and beyond its end a free value (R41). -/
def Sink.answerAt (k : Sink) (j : Nat) : SinkAnswer :=
  match k.script[j]? with
  | some a => a
  | none => (Config.freeAnswer (k.draws + (j - k.script.length))).received

/-- The sink's answers to the next k transactions are `ok`. -/
abbrev State.SinkOk (s : State) (k : Nat) : Prop :=
  ∀ j < k, s.sink.answerAt j = .ok

/-- A command that took `s` to `t` was answered OK with `rdata`, having made exactly the transactions `ts`, all
accepted. Everything but PLEN and PVAL is said: ORDER, FAILED, the inputs, the sink and the responses. Of the
free values as many were drawn as the script was short of answers. -/
structure Completed (s t : State) (ts : List (List Byte)) (rdata : BitVec 12) : Prop where
  order  : t.order = s.order
  failed : t.failed = false
  inputs : t.inputs = s.inputs
  rsps   : t.rsps = s.rsps ++ [⟨.ok, rdata, 0⟩]
  txns   : t.sink.txns = s.sink.txns ++ ts.map Txn.accepted
  script : t.sink.script = s.sink.script.drop ts.length
  draws  : t.sink.draws = s.sink.draws + (ts.length - s.sink.script.length)

/-- Each byte a transaction of its own (R44). -/
def singles (bytes : List Byte) : List (List Byte) := bytes.map (fun b => [b])

/-- The command that took `s` to `t` added these bits to the stream: the bytes emitted, each in a one-byte
transaction, and the bits now pending are together the bits pending before, then the new ones; as many whole
bytes as there are were emitted (R114, R56). -/
structure Streamed (s t : State) (bits : List Bool) : Prop where
  step : ∃ bytes : List Byte, Completed s t (singles bytes) 0 ∧
    bytesBits s.order bytes ++ t.pending = s.pending ++ bits ∧
    bytes.length = (s.plen.toNat + bits.length) / 8
  plen : t.plen.toNat = (s.plen.toNat + bits.length) % 8
  pval : t.pval.toNat < 2 ^ t.plen.toNat

/-- The command adds these bits to the stream, from every state that is ready for it, if the sink answers `ok` to
as many transactions as bytes are completed (R56, R114). -/
def WritesBits (i : Instr) (bits : Order → List Bool) : Prop :=
  ∀ s : State, s.Ready → s.SinkOk ((s.plen.toNat + (bits s.order).length) / 8) →
    ∃ t, exec i s = .next t ∧ Streamed s t (bits s.order)

/-- The command is rejected with INVALID_INPUT and has no other effect, whatever the accumulator and the sink
hold (R206). -/
def RejectedAsInvalid (i : Instr) : Prop :=
  ∀ s : State, s.failed = false →
    exec i s = .next { s with rsps := s.rsps ++ [⟨.invalidInput, 0, 0⟩] }

/-- When the fields of a command word make it a reserved encoding, for W = 8 · 2^WTAG (R63, R65, R67, R68). -/
def ReservedFields (f : Fields) : Prop :=
  10 ≤ f.op.toNat ∨ f.rsv = 1 ∨
  ((f.op = 1 ∨ f.op = 2) ∧ (5 ≤ f.wtag.toNat ∨ 2 ^ (8 * 2 ^ f.wtag.toNat) ≤ f.value.toNat)) ∨
  (¬(f.op = 1 ∨ f.op = 2) ∧ f.wtag ≠ 0) ∨
  ((f.op = 0 ∨ 6 ≤ f.op.toNat) ∧ f.n ≠ 0) ∨
  (f.op = 0 ∧ 2 ≤ f.value.toNat) ∨
  (3 ≤ f.op.toNat ∧ f.value ≠ 0)

/-- The causes of InvalidInput that a legal command can have: rows 1 to 5 of the table of R201. -/
def InvalidCause : Instr → Prop
  | .writeU8 n v => 8 < n.toNat ∨ (n.toNat < 8 ∧ 2 ^ n.toNat ≤ v.toNat)
  | .writeU16 n v => 16 < n.toNat ∨ (n.toNat < 16 ∧ 2 ^ n.toNat ≤ v.toNat)
  | .writeU32 n v => 32 < n.toNat ∨ (n.toNat < 32 ∧ 2 ^ n.toNat ≤ v.toNat)
  | .writeU64 n v => 64 < n.toNat ∨ (n.toNat < 64 ∧ 2 ^ n.toNat ≤ v.toNat)
  | .writeU128 n v => 128 < n.toNat ∨ (n.toNat < 128 ∧ 2 ^ n.toNat ≤ v.toNat)
  | .writeI8 n v => 8 < n.toNat ∨ n = 0 ∨
      (n.toNat < 8 ∧ (v.toInt < -(2 ^ (n.toNat - 1)) ∨ 2 ^ (n.toNat - 1) ≤ v.toInt))
  | .writeI16 n v => 16 < n.toNat ∨ n = 0 ∨
      (n.toNat < 16 ∧ (v.toInt < -(2 ^ (n.toNat - 1)) ∨ 2 ^ (n.toNat - 1) ≤ v.toInt))
  | .writeI32 n v => 32 < n.toNat ∨ n = 0 ∨
      (n.toNat < 32 ∧ (v.toInt < -(2 ^ (n.toNat - 1)) ∨ 2 ^ (n.toNat - 1) ≤ v.toInt))
  | .writeI64 n v => 64 < n.toNat ∨ n = 0 ∨
      (n.toNat < 64 ∧ (v.toInt < -(2 ^ (n.toNat - 1)) ∨ 2 ^ (n.toNat - 1) ≤ v.toInt))
  | .writeI128 n v => 128 < n.toNat ∨ n = 0 ∨
      (n.toNat < 128 ∧ (v.toInt < -(2 ^ (n.toNat - 1)) ∨ 2 ^ (n.toNat - 1) ≤ v.toInt))
  | .writeBit _ => False
  | .writeBytes _ => False
  | .writeUnary0 _ => False
  | .writeUnary1 _ => False
  | .byteAligned => False
  | .byteAlign => False
  | .unwritten => False
  | .dispose => False

/-- When a command has a transaction that can fail: the column SinkFailure of the table of R203. For WRITE and
WRITE_SIGNED it is the slow path, `bits` not smaller than the room. -/
def SinkFailureCause (s : State) : Instr → Prop
  | .writeBit _ => s.plen = 7
  | .writeU8 n _ => 8 ≤ s.plen.toNat + n.toNat
  | .writeU16 n _ => 8 ≤ s.plen.toNat + n.toNat
  | .writeU32 n _ => 8 ≤ s.plen.toNat + n.toNat
  | .writeU64 n _ => 8 ≤ s.plen.toNat + n.toNat
  | .writeU128 n _ => 8 ≤ s.plen.toNat + n.toNat
  | .writeI8 n _ => 8 ≤ s.plen.toNat + n.toNat
  | .writeI16 n _ => 8 ≤ s.plen.toNat + n.toNat
  | .writeI32 n _ => 8 ≤ s.plen.toNat + n.toNat
  | .writeI64 n _ => 8 ≤ s.plen.toNat + n.toNat
  | .writeI128 n _ => 8 ≤ s.plen.toNat + n.toNat
  | .writeBytes buf => buf ≠ []
  | .writeUnary0 n => 8 ≤ s.plen.toNat + n.toNat + 1
  | .writeUnary1 n => 8 ≤ s.plen.toNat + n.toNat + 1
  | .byteAlign => s.plen ≠ 0
  | .byteAligned => False
  | .unwritten => False
  | .dispose => False

/-! The sink's failure information under another name: every piece of it replaced by what `f` gives (R15). -/

def AnswerOf.renamed (f : ErrInfo → ErrInfo) : SinkAnswer → SinkAnswer
  | .ok => .ok
  | .fail e taken => .fail (f e) taken

def Txn.renamed (f : ErrInfo → ErrInfo) : Txn → Txn
  | .accepted bytes => .accepted bytes
  | .failed bytes e taken => .failed bytes (f e) taken
  | .abandoned bytes taken => .abandoned bytes taken

def Response.renamed (f : ErrInfo → ErrInfo) (r : Response) : Response := { r with errinfo := f r.errinfo }

def Sink.renamed (f : ErrInfo → ErrInfo) (k : Sink) : Sink :=
  { k with txns := k.txns.map (Txn.renamed f), script := k.script.map (AnswerOf.renamed f) }

def State.renamed (f : ErrInfo → ErrInfo) (s : State) : State :=
  { s with sink := s.sink.renamed f, rsps := s.rsps.map (Response.renamed f) }

/-- No reset event is next: neither one between commands nor one during the next command. -/
abbrev State.NoReset (s : State) : Prop :=
  ∀ o rest, fetch s.inputs ≠ .reset o rest

/-- A writer's life begins: nothing is pending and FAILED = 0, as after a reset or a DISPOSE (R227). -/
abbrev State.NewLife (s : State) (o : Order) : Prop :=
  s.order = o ∧ s.plen = 0 ∧ s.pval = 0 ∧ s.failed = false

/-- A block just reset, on a sink just attached, that will answer in some way (R33, R34, R228). -/
abbrev State.Fresh (s : State) (o : Order) : Prop :=
  s.order = o ∧ s.plen = 0 ∧ s.pval = 0 ∧ s.failed = false ∧ s.sink.txns = [] ∧ s.rsps = []

end Sys2Proof.Machine
end

