-- ==== Sys2Proof/Certificates/Slice0/Obligations.lean ====
section
/-! DEFINITION. The statements for the provers, each a formal reading of rules of spec/. -/

open Sys2Proof Sys2Proof.Machine

/-! Encoding (30_encoding.md). -/

/-- The decoder reads back what the encoder writes, for every command and every operand (R60, R67). -/
def Obligations.DecodeReadsEncodedCommand : Prop :=
  ∀ i : Instr, i.wf = true → decode (encodeWord i) (payloadOf i) = .legal i

/-- Every legal record has exactly one encoding: whatever the decoder reads as a command is a well-formed
command and is that command's encoding, bit for bit (R67). -/
def Obligations.LegalRecordHasOneEncoding : Prop :=
  ∀ (w : CmdWord) (payload : List Byte) (i : Instr),
    decode w payload = .legal i → i.wf = true ∧ encode i = (w, payload)

/-- A word with its payload is rejected exactly if it is a reserved encoding by the spec's list (R68). -/
def Obligations.ReservedEncodingsAreTheListed : Prop :=
  ∀ (w : CmdWord) (payload : List Byte), payload.length = payloadCount w →
    ((∃ r, decode w payload = .reserved r) ↔ ReservedFields (fieldsOf w))

/-- The seven worked encodings, as words written out from the spec (R75). -/
def Obligations.WorkedEncodingsDecode : Prop :=
  decode 0x000000000000000000000000000000010000000000 [] = .legal (.writeBit true) ∧
  decode 0x000000000000000000000000000000050000000301 [] = .legal (.writeU8 3 5) ∧
  decode 0x000000000000000000000000000003ff0000000a21 [] = .legal (.writeU32 10 0x3FF) ∧
  decode 0x000000000000000000000000000000fb0000000402 [] = .legal (.writeI8 4 (-5)) ∧
  decode 0x000000000000000000000000000000000000000203 [0xAB, 0xCD] = .legal (.writeBytes [0xAB, 0xCD]) ∧
  decode 0x000000000000000000000000000000000000000a04 [] = .legal (.writeUnary0 10) ∧
  decode 0x000000000000000000000000000000000000000007 [] = .legal .byteAlign

/-! The step: commands, resets, the payload. -/

/-- A step runs the decoded command: where the next beats are a legal command's word and payload, the step is
`exec` of that command, once the beats are taken from the channel (R60, R66). -/
def Obligations.StepRunsDecodedCommand : Prop :=
  ∀ (s : State) (w : CmdWord) (payload : List Byte) (rest : List Input) (i : Instr),
    s.inputs = beatsOf w payload ++ rest → decode w payload = .legal i →
      step s = exec i { s with inputs := rest }

/-- A reserved encoding is answered INVALID_INPUT with no other effect, and takes its payload bytes along, if
FAILED = 0 (R68, R206). -/
def Obligations.StepRejectsReservedEncoding : Prop :=
  ∀ (s : State) (w : CmdWord) (payload : List Byte) (rest : List Input),
    s.failed = false → s.inputs = beatsOf w payload ++ rest → payload.length = payloadCount w →
    ReservedFields (fieldsOf w) →
      step s = .next { s with inputs := rest, rsps := s.rsps ++ [⟨.invalidInput, 0, 0⟩] }

/-- While FAILED = 1 every command word, legal or reserved, is answered STATUS = 2, RDATA = 0, ERRINFO = 0, with
no other effect but that its payload bytes are taken; and only the reset event clears FAILED (R208, R205, R25). -/
def Obligations.FailedBlockRefusesEveryWord : Prop :=
  (∀ (s : State) (w : CmdWord) (payload : List Byte) (rest : List Input),
    s.failed = true → s.inputs = beatsOf w payload ++ rest → payload.length = payloadCount w →
      step s = .next { s with inputs := rest, rsps := s.rsps ++ [⟨.sinkFailure, 0, 0⟩] }) ∧
  (∀ s t : State, step s = .next t → s.NoReset → s.failed = true → t.failed = true)

/-- ORDER is written by the reset event only (R20, R52). -/
def Obligations.OnlyResetWritesOrder : Prop :=
  ∀ s t : State, step s = .next t → s.NoReset → t.order = s.order

/-- The reset event between commands: ORDER from the strap, PLEN, PVAL and FAILED cleared; the sink and the
responses untouched (R225, R226, R33, R34). -/
def Obligations.ResetEventSetsRegisters : Prop :=
  ∀ (s : State) (o : Order) (rest : List Input), s.inputs = .reset o :: rest →
    step s = .next { s with order := o, plen := 0, pval := 0, failed := false, inputs := rest }

/-- A reset during a command, after `answered` of its transactions: no response; the block as after reset; of
the command's transactions those answered stand and the one in flight leaves an unspecified first part in the
log, of `taken` bytes (R226, R225). That a command whose transactions were all answered is still abandoned is
the model's reading (assumption 6). -/
def Obligations.ResetDuringCommandAbandonsIt : Prop :=
  ∀ (s u : State) (w : CmdWord) (payload : List Byte) (rest : List Input) (o : Order)
    (answered taken : Nat) (new : List Txn),
    s.inputs = .strike o answered taken :: (beatsOf w payload ++ rest) →
    payload.length = payloadCount w →
    runWord w payload { s with inputs := rest } = .next u →
    u.sink.txns = s.sink.txns ++ new →
      ∃ t, step s = .next t ∧ t.order = o ∧ t.plen = 0 ∧ t.pval = 0 ∧ t.failed = false ∧
        t.rsps = s.rsps ∧ t.inputs = rest ∧
        (∀ pre x post, new = pre ++ x :: post → pre.length = answered →
          ∃ bytes, (x = .accepted bytes ∨ (∃ e k, x = .failed bytes e k) ∨ (∃ k, x = .abandoned bytes k)) ∧
            t.log = s.log ++ pre.flatMap Txn.taken ++ bytes.take taken) ∧
        (new.length ≤ answered → t.log = s.log ++ new.flatMap Txn.taken)

/-- A WRITE_BYTES command does not start before all N payload bytes are present (R66): the step changes nothing.
That a word with OP = 0x3 waits too where it is a reserved encoding or FAILED = 1, and that waiting is a step
without effect, is the model's choice (assumption 5). -/
def Obligations.CommandAwaitsItsPayload : Prop :=
  ∀ (s : State) (w : CmdWord) (arrived : List Byte),
    s.inputs = beatsOf w arrived → arrived.length < payloadCount w → step s = .next s

/-- A delivery that breaks the form of R66 stops the step by name; the stop is the model's choice
(assumption 8). With no input at all the block waits (R28). -/
def Obligations.BrokenDeliveryStops : Prop :=
  (∀ (s : State) (b : Byte) (rest : List Input), s.inputs = .byte b :: rest →
    step s = .fault .strayPayloadByte) ∧
  (∀ (s : State) (w w' : CmdWord) (arrived : List Byte) (rest : List Input),
    s.inputs = beatsOf w arrived ++ .word w' :: rest → arrived.length < payloadCount w →
      step s = .fault .payloadCutShort) ∧
  (∀ s : State, s.inputs = [] → step s = .next s)

/-! Reset and invariants. -/

/-- After reset with either strap: PLEN = 0, PVAL = 0, FAILED = 0, ORDER the strap's; and so the invariant
holds and the block is byte-aligned (R33, R34). -/
def Obligations.ResetStateIsEmptyAndAligned : Prop :=
  ∀ o : Order, (State.resetWith o).plen = 0 ∧ (State.resetWith o).pval = 0 ∧
    (State.resetWith o).failed = false ∧ (State.resetWith o).order = o ∧
    (State.resetWith o).Inv ∧ (State.resetWith o).aligned = true

/-- Every step keeps the invariant of a command boundary: while FAILED = 0, PLEN ≤ 7 and PVAL < 2^PLEN
(R21, R23, R57). -/
def Obligations.StepKeepsAccumulatorInvariant : Prop :=
  ∀ s t : State, s.Inv → step s = .next t → t.Inv

/-- No command stops under the invariant: every step of a state whose next inputs are a command word with its
payload answers a next state (R68, R97). -/
def Obligations.EveryCommandIsAnswered : Prop :=
  ∀ (s : State) (w : CmdWord) (payload : List Byte) (rest : List Input),
    s.Inv → s.inputs = beatsOf w payload ++ rest → payload.length = payloadCount w →
      ∃ t r, step s = .next t ∧ t.inputs = rest ∧ t.rsps = s.rsps ++ [r]

/-- The sink log is append-only: no step changes what the sink has taken before (R42). -/
def Obligations.SinkLogOnlyGrows : Prop :=
  ∀ s t : State, step s = .next t → s.sink.txns <+: t.sink.txns ∧ s.log <+: t.log

/-- Every command word is answered by one response word: STATUS in rsp[1:0], RDATA in rsp[13:2], ERRINFO above;
STATUS 3 is never produced; RDATA is zero unless STATUS = OK; ERRINFO is the sink's information if a transaction
of this command failed, STATUS then being SINK_FAILURE, and is zero otherwise. ERRW is a parameter, so this is for
every ERRW (R70, R15, R200). -/
def Obligations.ResponseOfEveryCommandWord : Prop :=
  (∀ r : Response,
    r.word.extractLsb' 0 2 = r.status.code ∧ r.word.extractLsb' 2 12 = r.rdata ∧
      r.word.extractLsb' 14 Config.errWidth = r.errinfo ∧ r.word.extractLsb' 0 2 ≠ 3) ∧
  Status.ok.code = 0 ∧ Status.invalidInput.code = 1 ∧ Status.sinkFailure.code = 2 ∧
  (∀ (w : CmdWord) (payload : List Byte) (s t : State), runWord w payload s = .next t →
    ∃ (r : Response) (new : List Txn), t.rsps = s.rsps ++ [r] ∧ t.sink.txns = s.sink.txns ++ new ∧
      (r.status ≠ .ok → r.rdata = 0) ∧
      (∀ bytes e k, .failed bytes e k ∈ new → r.status = .sinkFailure ∧ r.errinfo = e) ∧
      ((∀ bytes e k, .failed bytes e k ∉ new) → r.errinfo = 0))

/-- RDATA by operation, when STATUS = OK: BYTE_ALIGNED gives RDATA[0] = 1 if PLEN = 0, else 0, and zeros above;
UNWRITTEN gives PLEN in RDATA[3:0] and PVAL in RDATA[11:4]; every other operation gives 0 (R71). -/
def Obligations.RdataOfEveryOperation : Prop :=
  ∀ (i : Instr) (s t : State) (r : Response), exec i s = .next t → t.rsps = s.rsps ++ [r] → r.status = .ok →
    (i = .byteAligned → r.rdata.getLsbD 0 = decide (s.plen = 0) ∧ r.rdata.extractLsb' 1 11 = 0) ∧
    (i = .unwritten → r.rdata.extractLsb' 0 4 = s.plen ∧ r.rdata.extractLsb' 4 8 = s.pval) ∧
    (i ≠ .byteAligned → i ≠ .unwritten → r.rdata = 0)

/-! The accumulator (40_accumulator.md). -/

/-- Push within its precondition: len grows by n; the packed value is val·2^n + v under MSB_FIRST and
val + v·2^len under LSB_FIRST, and its positions from len up stay zero; the n bits of v enter the queue after
those held, the most significant nearest the front under MSB_FIRST, the least under LSB_FIRST (R92, R93, R23). -/
def Obligations.PushAppendsToQueue : Prop :=
  ∀ (o : Order) (a : Acc) (n v : Nat),
    a.len + n ≤ a.carrier.width → v < 2 ^ n → a.val < 2 ^ a.len →
      ∃ a', push o a n v = some a' ∧ a'.carrier = a.carrier ∧ a'.len = a.len + n ∧
        (o = .msbFirst → a'.val = a.val * 2 ^ n + v) ∧ (o = .lsbFirst → a'.val = a.val + v * 2 ^ a.len) ∧
        a'.val < 2 ^ a'.len ∧ a'.queue o = a.queue o ++ seq o n v

/-- Pop within its precondition: it returns the top n held bits under MSB_FIRST and the low n under LSB_FIRST,
which are the n bits nearest the front, and leaves the others (R94, R95, R23). -/
def Obligations.PopTakesFromFront : Prop :=
  ∀ (o : Order) (a : Acc) (n : Nat), n ≤ a.len → a.val < 2 ^ a.len →
    ∃ r a', pop o a n = some (r, a') ∧ a'.carrier = a.carrier ∧ a'.len = a.len - n ∧
      (o = .msbFirst → r = a.val / 2 ^ (a.len - n) ∧ a'.val = a.val % 2 ^ (a.len - n)) ∧
      (o = .lsbFirst → r = a.val % 2 ^ n ∧ a'.val = a.val / 2 ^ n) ∧
      r < 2 ^ n ∧ a'.val < 2 ^ a'.len ∧
      seq o n r = (a.queue o).take n ∧ a'.queue o = (a.queue o).drop n

/-- First in, first out: two values pushed into an empty accumulator are popped in that order (R99). -/
def Obligations.AccumulatorIsFirstInFirstOut : Prop :=
  ∀ (o : Order) (c : Carrier) (n1 v1 n2 v2 : Nat),
    n1 + n2 ≤ c.width → v1 < 2 ^ n1 → v2 < 2 ^ n2 →
      ∃ a1 a2 a3 a4, push o ⟨c, 0, 0⟩ n1 v1 = some a1 ∧ push o a1 n2 v2 = some a2 ∧
        pop o a2 n1 = some (v1, a3) ∧ pop o a3 n2 = some (v2, a4)

/-- A byte popped from a full P is the old PVAL, in both orders, and P is then empty; the oldest of the eight
bits is at bit 7 under MSB_FIRST and at bit 0 under LSB_FIRST (R100). -/
def Obligations.FullByteLeavesAsItStands : Prop :=
  ∀ (o : Order) (v : Nat), v < 2 ^ 8 → pop o ⟨.w8, 8, v⟩ 8 = some (v, ⟨.w8, 0, 0⟩) ∧
    Acc.queue o ⟨.w8, 8, v⟩ = bytesBits o [byteOf v] ∧
    (Acc.queue o ⟨.w8, 8, v⟩).head? = some (v.testBit (match o with | .msbFirst => 7 | .lsbFirst => 0))

/-- Outside their preconditions push and pop have no value (R97, U3, U4). -/
def Obligations.NoValueOutsidePreconditions : Prop :=
  (∀ o a n v, push o a n v = none ↔ ¬(a.len + n ≤ a.carrier.width ∧ v < 2 ^ n)) ∧
  (∀ o a n, pop o a n = none ↔ ¬ n ≤ a.len)

/-! WRITE_BIT and WRITE (41_write_bit_write.md). -/

/-- WRITE_BIT in closed form: below PLEN = 7 the bit joins the pending ones and nothing is emitted; at PLEN = 7
the byte is emitted and P is empty (R110). -/
def Obligations.WriteBitPushesOneBit : Prop :=
  ∀ (b : Bool) (s : State), s.Ready →
    (s.plen.toNat < 7 →
      ∃ t, exec (.writeBit b) s = .next t ∧ Completed s t [] 0 ∧ t.plen.toNat = s.plen.toNat + 1 ∧
        (s.order = .msbFirst → t.pval.toNat = 2 * s.pval.toNat + bitValue b) ∧
        (s.order = .lsbFirst → t.pval.toNat = s.pval.toNat + bitValue b * 2 ^ s.plen.toNat)) ∧
    (s.plen.toNat = 7 → s.SinkOk 1 →
      ∃ t byte, exec (.writeBit b) s = .next t ∧ Completed s t [[byte]] 0 ∧ t.plen = 0 ∧ t.pval = 0 ∧
        (s.order = .msbFirst → byte.toNat = 2 * s.pval.toNat + bitValue b) ∧
        (s.order = .lsbFirst → byte.toNat = s.pval.toNat + bitValue b * 128))

/-- WRITE with a value that fits: its bits enter the stream, most- or least-significant first per ORDER, every
byte completed is emitted in a transaction of its own, and the rest is pending (R111, R114, R116, R44). -/
def Obligations.WriteAddsItsBits : Prop :=
  ∀ n : Count,
    (∀ v : BitVec 8, n.toNat ≤ 8 → v.toNat < 2 ^ n.toNat →
      WritesBits (.writeU8 n v) (fun o => seq o n.toNat v.toNat)) ∧
    (∀ v : BitVec 16, n.toNat ≤ 16 → v.toNat < 2 ^ n.toNat →
      WritesBits (.writeU16 n v) (fun o => seq o n.toNat v.toNat)) ∧
    (∀ v : BitVec 32, n.toNat ≤ 32 → v.toNat < 2 ^ n.toNat →
      WritesBits (.writeU32 n v) (fun o => seq o n.toNat v.toNat)) ∧
    (∀ v : BitVec 64, n.toNat ≤ 64 → v.toNat < 2 ^ n.toNat →
      WritesBits (.writeU64 n v) (fun o => seq o n.toNat v.toNat)) ∧
    (∀ v : BitVec 128, n.toNat ≤ 128 → v.toNat < 2 ^ n.toNat →
      WritesBits (.writeU128 n v) (fun o => seq o n.toNat v.toNat))

/-- WRITE with `bits` above W, or below W with a value of 2^bits or more, is rejected and leaves no trace
(R111, R206). -/
def Obligations.WriteRejectsWhatDoesNotFit : Prop :=
  ∀ n : Count,
    (∀ v : BitVec 8, 8 < n.toNat ∨ (n.toNat < 8 ∧ 2 ^ n.toNat ≤ v.toNat) → RejectedAsInvalid (.writeU8 n v)) ∧
    (∀ v : BitVec 16, 16 < n.toNat ∨ (n.toNat < 16 ∧ 2 ^ n.toNat ≤ v.toNat) →
      RejectedAsInvalid (.writeU16 n v)) ∧
    (∀ v : BitVec 32, 32 < n.toNat ∨ (n.toNat < 32 ∧ 2 ^ n.toNat ≤ v.toNat) →
      RejectedAsInvalid (.writeU32 n v)) ∧
    (∀ v : BitVec 64, 64 < n.toNat ∨ (n.toNat < 64 ∧ 2 ^ n.toNat ≤ v.toNat) →
      RejectedAsInvalid (.writeU64 n v)) ∧
    (∀ v : BitVec 128, 128 < n.toNat ∨ (n.toNat < 128 ∧ 2 ^ n.toNat ≤ v.toNat) →
      RejectedAsInvalid (.writeU128 n v))

/-- The carrier enters the validation only: the same value in the same number of bits has the same effect with
every carrier that admits it (R117). -/
def Obligations.CarrierEntersValidationOnly : Prop :=
  ∀ (c1 c2 : Carrier) (n : Count) (v : BitVec 128) (s : State),
    n.toNat ≤ c1.width → n.toNat ≤ c2.width → v.toNat < 2 ^ n.toNat →
      exec (writeInstr c1 n v) s = exec (writeInstr c2 n v) s

/-- A write of k whole bytes while byte-aligned emits the bytes of the value, the most significant first under
MSB_FIRST and the least significant first under LSB_FIRST, and leaves nothing pending (R50). -/
def Obligations.AlignedWriteEmitsBytesOfValue : Prop :=
  ∀ (c : Carrier) (n : Count) (v : BitVec 128) (k : Nat) (s : State),
    n.toNat = 8 * k → n.toNat ≤ c.width → v.toNat < 2 ^ n.toNat →
    s.Ready → s.plen = 0 → s.SinkOk k →
      ∃ t, exec (writeInstr c n v) s = .next t ∧ t.plen = 0 ∧ t.pval = 0 ∧
        (s.order = .msbFirst →
          Completed s t (singles ((List.range k).map (fun j => byteOf (v.toNat / 2 ^ (8 * (k - 1 - j)))))) 0) ∧
        (s.order = .lsbFirst →
          Completed s t (singles ((List.range k).map (fun j => byteOf (v.toNat / 2 ^ (8 * j))))) 0)

/-- `pack` by push and pop is the arithmetic of the packed values (R115, R112, R113). -/
def Obligations.PackIsItsClosedForm : Prop :=
  ∀ (o : Order) (c : Carrier) (bits value : Nat) (p : Acc),
    p.carrier = .w8 → p.len ≤ 7 → p.val < 2 ^ p.len → bits ≤ c.width → value < 2 ^ bits →
      pack o c bits value p = some (packArith o bits value p)

/-! WRITE_SIGNED (42_write_signed.md). -/

/-- WRITE_SIGNED with a value in the signed range of `bits` bits: the bits of `value mod 2^bits` enter the
stream (R125, R126). -/
def Obligations.SignedWriteAddsTwosComplement : Prop :=
  ∀ n : Count, 1 ≤ n.toNat →
    (∀ v : BitVec 8, n.toNat ≤ 8 → -(2 ^ (n.toNat - 1)) ≤ v.toInt → v.toInt < 2 ^ (n.toNat - 1) →
      WritesBits (.writeI8 n v) (fun o => seq o n.toNat (v.toInt % 2 ^ n.toNat).toNat)) ∧
    (∀ v : BitVec 16, n.toNat ≤ 16 → -(2 ^ (n.toNat - 1)) ≤ v.toInt → v.toInt < 2 ^ (n.toNat - 1) →
      WritesBits (.writeI16 n v) (fun o => seq o n.toNat (v.toInt % 2 ^ n.toNat).toNat)) ∧
    (∀ v : BitVec 32, n.toNat ≤ 32 → -(2 ^ (n.toNat - 1)) ≤ v.toInt → v.toInt < 2 ^ (n.toNat - 1) →
      WritesBits (.writeI32 n v) (fun o => seq o n.toNat (v.toInt % 2 ^ n.toNat).toNat)) ∧
    (∀ v : BitVec 64, n.toNat ≤ 64 → -(2 ^ (n.toNat - 1)) ≤ v.toInt → v.toInt < 2 ^ (n.toNat - 1) →
      WritesBits (.writeI64 n v) (fun o => seq o n.toNat (v.toInt % 2 ^ n.toNat).toNat)) ∧
    (∀ v : BitVec 128, n.toNat ≤ 128 → -(2 ^ (n.toNat - 1)) ≤ v.toInt → v.toInt < 2 ^ (n.toNat - 1) →
      WritesBits (.writeI128 n v) (fun o => seq o n.toNat (v.toInt % 2 ^ n.toNat).toNat))

/-- WRITE_SIGNED with zero bits, with `bits` above W, or below W with a value outside the signed range, is
rejected and leaves no trace (R125, R127, R206). -/
def Obligations.SignedWriteRejectsWhatDoesNotFit : Prop :=
  ∀ n : Count,
    (∀ v : BitVec 8, 8 < n.toNat ∨ n = 0 ∨
      (n.toNat < 8 ∧ (v.toInt < -(2 ^ (n.toNat - 1)) ∨ 2 ^ (n.toNat - 1) ≤ v.toInt)) →
      RejectedAsInvalid (.writeI8 n v)) ∧
    (∀ v : BitVec 16, 16 < n.toNat ∨ n = 0 ∨
      (n.toNat < 16 ∧ (v.toInt < -(2 ^ (n.toNat - 1)) ∨ 2 ^ (n.toNat - 1) ≤ v.toInt)) →
      RejectedAsInvalid (.writeI16 n v)) ∧
    (∀ v : BitVec 32, 32 < n.toNat ∨ n = 0 ∨
      (n.toNat < 32 ∧ (v.toInt < -(2 ^ (n.toNat - 1)) ∨ 2 ^ (n.toNat - 1) ≤ v.toInt)) →
      RejectedAsInvalid (.writeI32 n v)) ∧
    (∀ v : BitVec 64, 64 < n.toNat ∨ n = 0 ∨
      (n.toNat < 64 ∧ (v.toInt < -(2 ^ (n.toNat - 1)) ∨ 2 ^ (n.toNat - 1) ≤ v.toInt)) →
      RejectedAsInvalid (.writeI64 n v)) ∧
    (∀ v : BitVec 128, 128 < n.toNat ∨ n = 0 ∨
      (n.toNat < 128 ∧ (v.toInt < -(2 ^ (n.toNat - 1)) ∨ 2 ^ (n.toNat - 1) ≤ v.toInt)) →
      RejectedAsInvalid (.writeI128 n v))

/-- Bit `bits - 1` of the packed value is the sign: written first under MSB_FIRST and last under LSB_FIRST; the
low bits are those of `value mod 2^(bits-1)`; the packed value is `value` or `value + 2^bits` (R126). -/
def Obligations.SignBitStandsFirstOrLast : Prop :=
  ∀ (bits : Nat) (value : Int), 1 ≤ bits → -(2 ^ (bits - 1)) ≤ value → value < 2 ^ (bits - 1) →
    ((packSigned bits value : Int) = if value < 0 then value + 2 ^ bits else value) ∧
    ((packSigned bits value % 2 ^ (bits - 1) : Nat) : Int) = value % 2 ^ (bits - 1) ∧
    (seq .msbFirst bits (packSigned bits value)).head? = some (decide (value < 0)) ∧
    (seq .lsbFirst bits (packSigned bits value)).getLast? = some (decide (value < 0))

/-- A non-negative value that is in the signed range is written by WRITE_SIGNED as by WRITE (R129). -/
def Obligations.SignedAgreesWithUnsignedWrite : Prop :=
  ∀ (n : Count) (s : State), 1 ≤ n.toNat →
    (∀ v : BitVec 8, n.toNat ≤ 8 → 0 ≤ v.toInt → v.toInt < 2 ^ (n.toNat - 1) →
      exec (.writeI8 n v) s = exec (.writeU8 n v) s) ∧
    (∀ v : BitVec 16, n.toNat ≤ 16 → 0 ≤ v.toInt → v.toInt < 2 ^ (n.toNat - 1) →
      exec (.writeI16 n v) s = exec (.writeU16 n v) s) ∧
    (∀ v : BitVec 32, n.toNat ≤ 32 → 0 ≤ v.toInt → v.toInt < 2 ^ (n.toNat - 1) →
      exec (.writeI32 n v) s = exec (.writeU32 n v) s) ∧
    (∀ v : BitVec 64, n.toNat ≤ 64 → 0 ≤ v.toInt → v.toInt < 2 ^ (n.toNat - 1) →
      exec (.writeI64 n v) s = exec (.writeU64 n v) s) ∧
    (∀ v : BitVec 128, n.toNat ≤ 128 → 0 ≤ v.toInt → v.toInt < 2 ^ (n.toNat - 1) →
      exec (.writeI128 n v) s = exec (.writeU128 n v) s)

/-! WRITE_BYTES (43_write_bytes.md). -/

/-- WRITE_BYTES while aligned: the whole buffer in one transaction, unchanged under either ORDER, none for an
empty buffer; PLEN and PVAL are as before (R135, R138). -/
def Obligations.AlignedBytesGoInOneTransaction : Prop :=
  ∀ (buf : List Byte) (s : State), s.failed = false → s.plen = 0 → (buf ≠ [] → s.SinkOk 1) →
    ∃ t, exec (.writeBytes buf) s = .next t ∧ t.plen = s.plen ∧ t.pval = s.pval ∧
      Completed s t (if buf = [] then [] else [buf]) 0

/-- WRITE_BYTES while not aligned: the bits of each byte in order, one one-byte transaction a byte, PLEN
unchanged; and in closed form the byte emitted first and what is then pending (R136). -/
def Obligations.UnalignedBytesArePackedOneByOne : Prop :=
  ∀ (buf : List Byte) (s : State), s.Ready → s.plen ≠ 0 → s.SinkOk buf.length →
    ∃ t, exec (.writeBytes buf) s = .next t ∧ Streamed s t (bytesBits s.order buf) ∧ t.plen = s.plen ∧
      t.sink.txns.length = s.sink.txns.length + buf.length ∧
      (∀ b, buf = [b] → s.order = .msbFirst →
        Completed s t [[byteOf (s.pval.toNat * 2 ^ (8 - s.plen.toNat) + b.toNat / 2 ^ s.plen.toNat)]] 0 ∧
        t.pval.toNat = b.toNat % 2 ^ s.plen.toNat) ∧
      (∀ b, buf = [b] → s.order = .lsbFirst →
        Completed s t
          [[byteOf (s.pval.toNat + b.toNat % 2 ^ (8 - s.plen.toNat) * 2 ^ s.plen.toNat)]] 0 ∧
        t.pval.toNat = b.toNat / 2 ^ (8 - s.plen.toNat))

/-- WRITE_BYTES and a WRITE.U8 8 for each byte leave the same sink log and the same accumulator, at every
alignment, if no transaction fails (R137). -/
def Obligations.BytesEqualPerByteWrites : Prop :=
  ∀ (buf : List Byte) (s t u : State), s.Ready →
    exec (.writeBytes buf) s = .next t → t.failed = false →
    runAll (buf.map (fun b => .writeU8 8 b)) s = .next u → u.failed = false →
      t.log = u.log ∧ t.plen = u.plen ∧ t.pval = u.pval

/-! Unary runs (44_unary.md). -/

/-- WRITE_UNARY0 writes n one-bits, then a zero-bit; WRITE_UNARY1 writes n zero-bits, then a one-bit; with
`(PLEN + n + 1) div 8` one-byte transactions (R145, R148, R149). -/
def Obligations.UnaryAddsRunAndTerminator : Prop :=
  ∀ n : Count,
    WritesBits (.writeUnary0 n) (fun _ => List.replicate n.toNat true ++ [false]) ∧
    WritesBits (.writeUnary1 n) (fun _ => List.replicate n.toNat false ++ [true])

/-- A unary run of length 0 is its terminating bit alone (R150, R145, R148). -/
def Obligations.EmptyUnaryRunIsOneBit : Prop :=
  ∀ s : State, exec (.writeUnary0 0) s = exec (.writeBit false) s ∧
    exec (.writeUnary1 0) s = exec (.writeBit true) s

/-- Chunking: for n above 64, (n - 1) div 64 chunks of 64 leave a last part of 1 to 64 bits; up to 64 there is
no chunk (R147). -/
def Obligations.UnaryChunksLeaveOneToSixtyFour : Prop :=
  (∀ n, n ≤ 64 → unaryChunks n = 0) ∧
  (∀ n, 64 < n → unaryChunks n = (n - 1) / 64 ∧ 1 ≤ n - 64 * unaryChunks n ∧
    n - 64 * unaryChunks n ≤ 64 ∧ 64 * unaryChunks n ≤ n)

/-! Alignment and disposal (45_align_dispose.md). -/

/-- BYTE_ALIGNED answers RDATA = 1 if PLEN = 0, else 0, and writes nothing (R160, R71). -/
def Obligations.ByteAlignedReportsEmptyAccumulator : Prop :=
  ∀ s : State, s.failed = false →
    exec .byteAligned s =
      .next { s with rsps := s.rsps ++ [⟨.ok, if s.plen = 0 then 1 else 0, 0⟩] }

/-- BYTE_ALIGN: nothing if aligned; otherwise exactly one byte, the pending bits at the top under MSB_FIRST and
at the bottom under LSB_FIRST, zeros elsewhere, and P is empty (R161). -/
def Obligations.ByteAlignPadsWithZeros : Prop :=
  ∀ s : State, s.Ready →
    (s.plen = 0 → exec .byteAlign s = .next { s with rsps := s.rsps ++ [⟨.ok, 0, 0⟩] }) ∧
    (s.plen ≠ 0 → s.SinkOk 1 →
      ∃ t byte, exec .byteAlign s = .next t ∧ Completed s t [[byte]] 0 ∧ t.plen = 0 ∧ t.pval = 0 ∧
        (s.order = .msbFirst → byte.toNat = s.pval.toNat * 2 ^ (8 - s.plen.toNat)) ∧
        (s.order = .lsbFirst → byte.toNat = s.pval.toNat))

/-- BYTE_ALIGN right after one that was answered OK does nothing (R162). -/
def Obligations.ByteAlignIsIdempotent : Prop :=
  ∀ s t : State, s.Ready → exec .byteAlign s = .next t → t.failed = false →
    exec .byteAlign t = .next { t with rsps := t.rsps ++ [⟨.ok, 0, 0⟩] }

/-- UNWRITTEN reports PLEN in RDATA[3:0] and PVAL in RDATA[11:4] and changes nothing (R163, R71). -/
def Obligations.UnwrittenReportsPendingBits : Prop :=
  ∀ s : State, s.failed = false →
    ∃ rdata : BitVec 12, rdata.extractLsb' 0 4 = s.plen ∧ rdata.extractLsb' 4 8 = s.pval ∧
      exec .unwritten s = .next { s with rsps := s.rsps ++ [⟨.ok, rdata, 0⟩] }

/-- DISPOSE clears PLEN and PVAL, makes no transaction and is answered OK, whatever was pending (R164, R210). -/
def Obligations.DisposeDiscardsPendingBits : Prop :=
  ∀ s : State, s.failed = false →
    exec .dispose s = .next { s with plen := 0, pval := 0, rsps := s.rsps ++ [⟨.ok, 0, 0⟩] }

/-- The lossless way to end: after BYTE_ALIGN and DISPOSE the sink log holds all the bits that were pending,
then zeros up to the byte boundary (R165, R161). -/
def Obligations.AlignThenDisposeLosesNothing : Prop :=
  ∀ s : State, s.Ready → s.SinkOk 1 →
    ∃ t u, exec .byteAlign s = .next t ∧ exec .dispose t = .next u ∧
      bytesBits s.order u.log =
        bytesBits s.order s.log ++ s.pending ++ List.replicate ((8 - s.plen.toNat) % 8) false

/-! Errors (60_exceptions.md). -/

/-- A command word is answered INVALID_INPUT exactly for the causes of the table: a legal command with one of the
causes 1 to 5, or a reserved encoding (R201, R203). -/
def Obligations.InvalidInputHasTheListedCauses : Prop :=
  ∀ (w : CmdWord) (payload : List Byte) (s t : State) (r : Response),
    payload.length = payloadCount w → s.failed = false → runWord w payload s = .next t →
    t.rsps = s.rsps ++ [r] →
      (r.status = .invalidInput ↔
        (∃ i, decode w payload = .legal i ∧ InvalidCause i) ∨ ReservedFields (fieldsOf w)) ∧
      (r.status = .invalidInput → r.rdata = 0 ∧ r.errinfo = 0)

/-- A word answered INVALID_INPUT has no effect but that answer, STATUS = 1, RDATA = 0, ERRINFO = 0; and a
counting writer that rejects a call keeps its total (R206, R177). -/
def Obligations.InvalidInputLeavesNoTrace : Prop :=
  (∀ (w : CmdWord) (payload : List Byte) (s t : State) (r : Response),
    runWord w payload s = .next t → t.rsps = s.rsps ++ [r] → r.status = .invalidInput →
      t = { s with rsps := s.rsps ++ [⟨.invalidInput, 0, 0⟩] }) ∧
  (∀ (cw : Nat) (c c' : Counter) (i : Instr) (k : Status), c.issue cw i = .error c' k →
    c' = c ∧ k = .invalidInput ∧ InvalidCause i)

/-- Which command can raise SinkFailure: only one that completes a byte or sends a buffer; and such a command,
if it passes its validation, does raise it when the sink fails its first transaction (R203). -/
def Obligations.SinkFailureNeedsATransaction : Prop :=
  ∀ (i : Instr) (s t : State), s.Ready → exec i s = .next t →
    (t.failed = true → SinkFailureCause s i) ∧
    (SinkFailureCause s i → ¬ InvalidCause i → ∀ e k, s.sink.answerAt 0 = .fail e k → t.failed = true)

/-- A sink failure, as any command leaves it: if a transaction of the command failed, or FAILED went to 1, then
the transactions before the failing one were accepted and stand, of the failing one a first part of some length
k is in the log, it is the last one, FAILED = 1, the response is STATUS = 2, RDATA = 0 with the sink's
information, and ORDER is unchanged. PLEN and PVAL are free values and are not spoken of (R207, R202). -/
def Obligations.SinkFailureLeavesItsTrace : Prop :=
  ∀ (i : Instr) (s t : State) (new : List Txn), exec i s = .next t → s.failed = false →
    t.sink.txns = s.sink.txns ++ new →
    (t.failed = true ∨ ∃ bytes e k, .failed bytes e k ∈ new) →
    ∃ (ts : List (List Byte)) (bytes : List Byte) (e : ErrInfo) (k : Nat),
      new = ts.map Txn.accepted ++ [.failed bytes e k] ∧ t.failed = true ∧
      t.log = s.log ++ ts.flatten ++ bytes.take k ∧
      t.rsps = s.rsps ++ [⟨.sinkFailure, 0, e⟩] ∧ t.order = s.order ∧ t.inputs = s.inputs

/-- The sink's failure information is carried and never looked into: under other information, what a command does
is the same under that information, for all commands whose transactions the script answers. Zero, which stands for
no information, keeps its place (R15, R202). -/
def Obligations.SinkErrorIsCarriedVerbatim : Prop :=
  ∀ (f : ErrInfo → ErrInfo) (i : Instr) (s t : State), f 0 = 0 → exec i s = .next t →
    t.sink.txns.length ≤ s.sink.txns.length + s.sink.script.length →
      exec i (s.renamed f) = .next (t.renamed f)

/-- The first transaction that fails ends the command: if the command makes the transactions `ts` on a sink that
answers `ok`, then on a sink that fails the one numbered j it makes the first j of them and that one, no other,
and the command ends in SinkFailure (R202, R207). -/
def Obligations.FirstFailedTransactionEndsCommand : Prop :=
  ∀ (i : Instr) (s t : State) (ts : List (List Byte)) (rdata : BitVec 12) (j : Nat) (bytes : List Byte)
    (e : ErrInfo) (k : Nat) (later : List SinkAnswer),
    s.failed = false → s.SinkOk ts.length → exec i s = .next t → Completed s t ts rdata → ts[j]? = some bytes →
      ∃ u, exec i { s with sink := { s.sink with script := List.replicate j .ok ++ .fail e k :: later } } =
          .next u ∧
        u.failed = true ∧
        u.sink.txns = s.sink.txns ++ (ts.take j).map Txn.accepted ++ [.failed bytes e k] ∧
        u.sink.script = later ∧
        u.rsps = s.rsps ++ [⟨.sinkFailure, 0, e⟩] ∧ u.order = s.order ∧ u.inputs = s.inputs

/-- The frame of every command: ORDER and the inputs are unchanged; the transactions so far stand; FAILED goes
from 0 to 1 only by a failed transaction; while it is 1 a command changes no register and nothing of the sink
(R20, R25, R42, R208). -/
def Obligations.FrameOfEveryCommand : Prop :=
  ∀ (i : Instr) (s t : State), exec i s = .next t →
    t.order = s.order ∧ t.inputs = s.inputs ∧ s.sink.txns <+: t.sink.txns ∧
    (s.failed = true → t.failed = true ∧ t.plen = s.plen ∧ t.pval = s.pval ∧ t.sink = s.sink) ∧
    (t.failed = false → ∃ ts : List (List Byte), t.sink.txns = s.sink.txns ++ ts.map Txn.accepted)

/-! The stream. -/

/-- The stream law: from a reset or a DISPOSE on, for every call sequence in which no transaction fails and no
writer's life ends, the bits of the bytes emitted since, then the pending ones, are exactly the bits of the
calls in the order of the calls, first to last; nothing is lost, reordered or added, and every whole byte has
been emitted (R56, R49, R114). -/
def Obligations.StreamIsTheCallsInOrder : Prop :=
  ∀ (o : Order) (is : List Instr) (s t : State), s.NewLife o → Instr.dispose ∉ is →
    runAll is s = .next t → t.failed = false →
      ∃ bytes : List Byte, t.log = s.log ++ bytes ∧
        bytesBits o bytes ++ t.pending = streamOfCalls o 0 is ∧
        bytes.length = (streamOfCalls o 0 is).length / 8

/-- Bit k of the stream, from a reset or a DISPOSE on, is carried by byte k div 8 emitted since then, at bit
7 - (k mod 8) under MSB_FIRST and k mod 8 under LSB_FIRST (R49). -/
def Obligations.StreamBitsStandInTheirBytes : Prop :=
  ∀ (o : Order) (is : List Instr) (s t : State) (bytes : List Byte), s.NewLife o → Instr.dispose ∉ is →
    runAll is s = .next t → t.failed = false → t.log = s.log ++ bytes →
      ∀ (k : Nat) (b : Byte), bytes[k / 8]? = some b →
        (streamOfCalls o 0 is)[k]? =
          some (b.getLsbD (match o with | .msbFirst => 7 - k % 8 | .lsbFirst => k % 8))

/-! Companion software (46_companion_backends.md). -/

/-- The counting law: for a call sequence on a fresh counting writer and on a block just reset, with no sink
failure and no overflow of the total, on a sink with an empty log and with no response given before, both
answer every call with the same status, the total is
8 · (bytes in the sink log) + PLEN, and 8 · (bytes in the sink log) if BYTE_ALIGN comes last (R181, R177). -/
def Obligations.CountingTotalIsBitsOfBlock : Prop :=
  ∀ (o : Order) (cw : Nat) (is : List Instr) (s t : State) (c : Counter) (sts : List Status), s.Fresh o →
    countAll cw is .fresh = some (sts, c) → runAll is s = .next t → t.failed = false →
      c.total = 8 * t.log.length + t.plen.toNat ∧ t.rsps.map Response.status = sts ∧
        (is.getLast? = some .byteAlign → c.total = 8 * t.log.length)

/-- The recorder's law: a recorded sequence of valid calls, played back on two fresh blocks of one ORDER,
leaves the same log on both, and the same as the calls made directly; the pending bits agree too. No sink
fails (R190, R188, R189). -/
def Obligations.PlaybackEqualsDirectCalls : Prop :=
  ∀ (o : Order) (cw : Nat) (is : List Instr) (r : Recorder) (s1 s2 s3 t1 t2 t3 : State),
    s1.Fresh o → s2.Fresh o → s3.Fresh o →
    (∀ i ∈ is, fits i = true) → recordAll cw is .fresh = some r →
    r.playback issueBlock s1 = .done t1 → r.playback issueBlock s2 = .done t2 →
    runAll is s3 = .next t3 → t3.failed = false →
      t1.log = t2.log ∧ t1.log = t3.log ∧
      t1.plen = t3.plen ∧ t1.pval = t3.pval ∧ t2.plen = t3.plen ∧ t2.pval = t3.pval

/-- A recorder accepts every operation of the contract that its total has room for, one that does not fit too;
played back on a block that
is ready, the record of a value that does not fit is answered INVALID_INPUT, and the block is as if it had not
been issued but for that response (R185, R186). -/
def Obligations.RecorderDefersValidation : Prop :=
  (∀ (cw : Nat) (r : Recorder) (i : Instr), inContract i = true → r.total + nominalBits r.total i < 2 ^ cw →
    ∃ r', r.issue cw i = .done r' ∧ r.log <+: r'.log ∧ r'.total = r.total + nominalBits r.total i) ∧
  (∀ (cw : Nat) (i : Instr) (s : State) (r : Recorder), InvalidCause i → s.failed = false →
    recordAll cw [i] .fresh = some r →
      r.playback issueBlock s = .error { s with rsps := s.rsps ++ [⟨.invalidInput, 0, 0⟩] } .invalidInput)

/-- WRITE_HUFFMAN on the block, when every step is answered OK: the bits of the symbol's steps enter the
stream in the table's order (R192). -/
def Obligations.HuffmanWritesTheStepsInOrder : Prop :=
  ∀ (Sym : Type) [DecidableEq Sym] (table : EncodeTable Sym) (symbol : Sym)
    (steps : List (Count × BitVec table.hw.width)) (s t : State),
    s.Ready → table.rows.lookup symbol = some steps → writeHuffman table symbol issueBlock s = .done t →
      ∃ bytes : List Byte, t.log = s.log ++ bytes ∧
        bytesBits s.order bytes ++ t.pending =
          s.pending ++ steps.flatMap (fun st => seq s.order st.1.toNat st.2.toNat)
end

