-- ==== Sys2Proof/Laws/Accumulator.lean ====
section
/-! SUPPORT. What push, pop and seeding do within their preconditions, as arithmetic, and that each keeps the
invariant val < 2^len (R23, R92 to R98). -/

namespace Sys2Proof.Machine

/-- The invariant of every accumulator (R23). -/
abbrev Acc.Clean (a : Acc) : Prop := a.val < 2 ^ a.len

theorem push_msb {a : Acc} {n v : Nat} (hl : a.len + n ≤ a.carrier.width) (hv : v < 2 ^ n) :
    push .msbFirst a n v = some ⟨a.carrier, a.len + n, a.val * 2 ^ n + v⟩ := by
  simp [push, hl, hv]

theorem push_lsb {a : Acc} {n v : Nat} (hl : a.len + n ≤ a.carrier.width) (hv : v < 2 ^ n) :
    push .lsbFirst a n v = some ⟨a.carrier, a.len + n, a.val + v * 2 ^ a.len⟩ := by
  simp [push, hl, hv]

theorem pop_msb {a : Acc} {n : Nat} (h : n ≤ a.len) :
    pop .msbFirst a n =
      some (a.val / 2 ^ (a.len - n), ⟨a.carrier, a.len - n, a.val % 2 ^ (a.len - n)⟩) := by
  simp [pop, h]

theorem pop_lsb {a : Acc} {n : Nat} (h : n ≤ a.len) :
    pop .lsbFirst a n = some (a.val % 2 ^ n, ⟨a.carrier, a.len - n, a.val / 2 ^ n⟩) := by
  simp [pop, h]

theorem mul_pow_add_lt {x v l n : Nat} (hx : x < 2 ^ l) (hv : v < 2 ^ n) :
    x * 2 ^ n + v < 2 ^ (l + n) := by
  calc x * 2 ^ n + v < x * 2 ^ n + 2 ^ n := Nat.add_lt_add_left hv _
    _ = (x + 1) * 2 ^ n := by ring
    _ ≤ 2 ^ l * 2 ^ n := Nat.mul_le_mul_right _ hx
    _ = 2 ^ (l + n) := (pow_add 2 l n).symm

theorem div_pow_lt {x l n : Nat} (h : n ≤ l) (hx : x < 2 ^ l) : x / 2 ^ (l - n) < 2 ^ n := by
  rw [Nat.div_lt_iff_lt_mul (Nat.two_pow_pos _), ← pow_add]
  rwa [show n + (l - n) = l by omega]

/-- Push, said once: within its precondition it answers an accumulator of the same carrier, longer by n, that
keeps the invariant. -/
theorem push_spec (o : Order) {a : Acc} {n v : Nat} (hl : a.len + n ≤ a.carrier.width) (hv : v < 2 ^ n)
    (ha : a.Clean) :
    ∃ a', push o a n v = some a' ∧ a'.carrier = a.carrier ∧ a'.len = a.len + n ∧ a'.Clean := by
  cases o
  · exact ⟨_, push_msb hl hv, rfl, rfl, mul_pow_add_lt ha hv⟩
  · refine ⟨_, push_lsb hl hv, rfl, rfl, ?_⟩
    show a.val + v * 2 ^ a.len < 2 ^ (a.len + n)
    rw [add_comm a.val, add_comm a.len]
    exact mul_pow_add_lt hv ha

/-- Pop, said once: within its precondition it answers a value of n bits and an accumulator shorter by n that
keeps the invariant. -/
theorem pop_spec (o : Order) {a : Acc} {n : Nat} (h : n ≤ a.len) (ha : a.Clean) :
    ∃ r a', pop o a n = some (r, a') ∧ a'.carrier = a.carrier ∧ a'.len = a.len - n ∧ a'.Clean ∧
      r < 2 ^ n := by
  cases o
  · exact ⟨_, _, pop_msb h, rfl, rfl, Nat.mod_lt _ (Nat.two_pow_pos _), div_pow_lt h ha⟩
  · refine ⟨_, _, pop_lsb h, rfl, rfl, ?_, Nat.mod_lt _ (Nat.two_pow_pos _)⟩
    show a.val / 2 ^ n < 2 ^ (a.len - n)
    have := div_pow_lt (n := a.len - n) (Nat.sub_le _ _) ha
    rwa [show a.len - (a.len - n) = n by omega] at this

/-- A push that answers was within its precondition. -/
theorem push_pre {o : Order} {a a' : Acc} {n v : Nat} (h : push o a n v = some a') :
    a.len + n ≤ a.carrier.width ∧ v < 2 ^ n := by
  by_contra hn
  simp [push, hn] at h

/-- A pop that answers was within its precondition. -/
theorem pop_pre {o : Order} {a : Acc} {n : Nat} {x : Nat × Acc} (h : pop o a n = some x) : n ≤ a.len := by
  by_contra hn
  simp [pop, hn] at h

theorem seed_spec {c : Carrier} {bits value : Nat} (hb : bits ≤ c.width) (hv : value < 2 ^ bits) :
    seed c bits value = some ⟨c, bits, value⟩ := by
  simp [seed, hb, hv]

end Sys2Proof.Machine
end

