-- ==== Sys2Proof/Laws/Companion.lean ====
section
/-! SUPPORT. What one operation on a counting writer and on a recorder can do, said once (R176, R177, R180,
R185). -/

namespace Sys2Proof.Machine

theorem advance_eq_some {cw total n : Nat} {i : Instr} :
    advance cw total i = some n ↔
      total + nominalBits total i < 2 ^ cw ∧ n = total + nominalBits total i := by
  unfold advance
  split <;> simp_all [eq_comm]

/-- A counting writer answers OK exactly to an operation of the contract that fits and has room. -/
theorem Counter.issue_done {cw : Nat} {c c' : Counter} {i : Instr} :
    c.issue cw i = .done c' ↔
      inContract i = true ∧ fits i = true ∧ c.total + nominalBits c.total i < 2 ^ cw ∧
        c' = ⟨c.total + nominalBits c.total i⟩ := by
  unfold Counter.issue advance
  cases inContract i <;> cases fits i <;>
    by_cases h : c.total + nominalBits c.total i < 2 ^ cw <;> simp [h, eq_comm]

/-- It answers an error exactly to an operation of the contract that does not fit, and keeps its total. -/
theorem Counter.issue_error {cw : Nat} {c c' : Counter} {i : Instr} {kind : Status} :
    c.issue cw i = .error c' kind ↔
      inContract i = true ∧ fits i = false ∧ c' = c ∧ kind = .invalidInput := by
  unfold Counter.issue advance
  cases inContract i <;> cases fits i <;>
    by_cases h : c.total + nominalBits c.total i < 2 ^ cw <;> simp [h, eq_comm]

/-- A recorder accepts exactly the operations of the contract that have room, whether or not they fit. -/
theorem Recorder.issue_done {cw : Nat} {r r' : Recorder} {i : Instr} :
    r.issue cw i = .done r' ↔
      inContract i = true ∧ r.total + nominalBits r.total i < 2 ^ cw ∧
        r' = ⟨r.total + nominalBits r.total i, r.log ++ recordsOf r.total i⟩ := by
  unfold Recorder.issue advance
  cases inContract i <;>
    by_cases h : r.total + nominalBits r.total i < 2 ^ cw <;> simp [h, eq_comm]

/-- A recorder never answers an error (R185). -/
theorem Recorder.issue_ne_error {cw : Nat} {r r' : Recorder} {i : Instr} {kind : Status} :
    r.issue cw i ≠ .error r' kind := by
  unfold Recorder.issue advance
  cases inContract i <;>
    by_cases h : r.total + nominalBits r.total i < 2 ^ cw <;> simp [h]

end Sys2Proof.Machine
end

