-- ==== Sys2Proof/Laws/Decode.lean ====
section
/-! SUPPORT. The fields of an assembled word are the fields it was assembled from, and a word is assembled
from its own fields. -/

namespace Sys2Proof

theorem extract_low_of_append {a b : Nat} (x : BitVec a) (y : BitVec b) :
    (x ++ y).extractLsb' 0 b = y := by
  ext i hi
  simp [BitVec.getLsbD_append, hi]

theorem extract_high_of_append {a b : Nat} (x : BitVec a) (y : BitVec b) (s n : Nat) :
    (x ++ y).extractLsb' (b + s) n = x.extractLsb' s n := by
  ext i hi
  simp only [BitVec.getElem_extractLsb', BitVec.getLsbD_append]
  simp [show ¬(b + s + i < b) by omega, show b + s + i - b = s + i by omega]

theorem append_of_extracts {a b : Nat} (w : BitVec (a + b)) :
    w.extractLsb' b a ++ w.extractLsb' 0 b = w := by
  ext i hi
  simp only [BitVec.getElem_append, BitVec.getElem_extractLsb']
  split
  · simpa using BitVec.getLsbD_eq_getElem hi
  · simpa [show b + (i - b) = i by omega] using BitVec.getLsbD_eq_getElem hi

theorem extract_of_extract {a : Nat} (w : BitVec a) (s n s' n' : Nat) (h : s' + n' ≤ n) :
    (w.extractLsb' s n).extractLsb' s' n' = w.extractLsb' (s + s') n' := by
  ext i hi
  simp only [BitVec.getElem_extractLsb', BitVec.getLsbD_extractLsb']
  simp [show s' + i < n by omega, Nat.add_assoc]

/-- The fields of a word are those it was assembled from (R61). -/
@[simp] theorem fieldsOf_assemble (f : Fields) : fieldsOf (assemble f) = f := by
  obtain ⟨op, wtag, rsv, n, value⟩ := f
  have h0 : (value ++ n ++ rsv ++ wtag ++ op).extractLsb' 0 4 = op := extract_low_of_append _ op
  have h1 : (value ++ n ++ rsv ++ wtag ++ op).extractLsb' (4 + 0) 3 = wtag :=
    (extract_high_of_append _ op 0 3).trans (extract_low_of_append _ wtag)
  have h2 : (value ++ n ++ rsv ++ wtag ++ op).extractLsb' (4 + 3) 1 = rsv :=
    (extract_high_of_append _ op 3 1).trans
      ((extract_high_of_append _ wtag 0 1).trans (extract_low_of_append _ rsv))
  have h3 : (value ++ n ++ rsv ++ wtag ++ op).extractLsb' (4 + 4) 32 = n :=
    (extract_high_of_append _ op 4 32).trans
      ((extract_high_of_append _ wtag 1 32).trans
        ((extract_high_of_append _ rsv 0 32).trans (extract_low_of_append _ n)))
  have h4 : (value ++ n ++ rsv ++ wtag ++ op).extractLsb' (4 + 36) 128 = value :=
    (extract_high_of_append _ op 36 128).trans
      ((extract_high_of_append _ wtag 33 128).trans
        ((extract_high_of_append _ rsv 32 128).trans
          ((extract_high_of_append _ n 0 128).trans BitVec.extractLsb'_eq_self)))
  exact (Fields.mk.injEq ..).mpr ⟨h0, h1, h2, h3, h4⟩

/-- A word is assembled from its own fields: no bit of it lies outside them (R61). -/
@[simp] theorem assemble_fieldsOf (w : CmdWord) : assemble (fieldsOf w) = w := by
  have e1 := append_of_extracts (a := 164) (b := 4) w
  have e2 := append_of_extracts (a := 161) (b := 3) (w.extractLsb' 4 164)
  have e3 := append_of_extracts (a := 160) (b := 1) (w.extractLsb' 7 161)
  have e4 := append_of_extracts (a := 128) (b := 32) (w.extractLsb' 8 160)
  rw [extract_of_extract w 4 164 3 161 (by omega), extract_of_extract w 4 164 0 3 (by omega)] at e2
  rw [extract_of_extract w 7 161 1 160 (by omega), extract_of_extract w 7 161 0 1 (by omega)] at e3
  rw [extract_of_extract w 8 160 32 128 (by omega), extract_of_extract w 8 160 0 32 (by omega)] at e4
  exact (congrArg (fun x => ((x ++ w.extractLsb' 7 1 : BitVec 161) ++ w.extractLsb' 4 3 : BitVec 164) ++
      w.extractLsb' 0 4) e4).trans
    ((congrArg (fun x => (x ++ w.extractLsb' 4 3 : BitVec 164) ++ w.extractLsb' 0 4) e3).trans
      ((congrArg (fun x => x ++ w.extractLsb' 0 4) e2).trans e1))

@[simp] theorem fieldsOf_encodeWord (i : Instr) : fieldsOf (encodeWord i) = fieldsFor i :=
  fieldsOf_assemble _

end Sys2Proof
end

