-- ==== Sys2Proof/Laws/Pack.lean ====
section
/-! SUPPORT. What each datapath does from a P at a command boundary, said once: it answers, with so many bytes,
and P is again at a command boundary (R110 to R116, R136, R149, R161). -/

namespace Sys2Proof.Machine

/-- P at a command boundary: 8 bits of carrier, PLEN ≤ 7, PVAL < 2^PLEN (R21, R23). -/
structure Acc.Boundary (p : Acc) : Prop where
  carrier : p.carrier = .w8
  len     : p.len ≤ 7
  clean   : p.Clean

/-- The datapath answers from P, writes `n` stream bits, and leaves P at a command boundary. -/
def Moves (e : Option Emission) (p : Acc) (n : Nat) : Prop :=
  ∃ e', e = some e' ∧ e'.part.Boundary ∧ e'.bytes.length = (p.len + n) / 8 ∧ e'.part.len = (p.len + n) % 8

theorem Moves.nothing {p : Acc} (hp : p.Boundary) : Moves (some ⟨[], p⟩) p 0 :=
  ⟨_, rfl, hp, by have := hp.len; simp; omega, by have := hp.len; simp; omega⟩

theorem Moves.andThen {e : Option Emission} {f : Acc → Option Emission} {p : Acc} {m n : Nat}
    (he : Moves e p m) (hf : ∀ q : Acc, q.Boundary → Moves (f q) q n) :
    Moves (Emission.andThen e f) p (m + n) := by
  obtain ⟨e1, rfl, hb, hl, hr⟩ := he
  obtain ⟨e2, h2, hb2, hl2, hr2⟩ := hf _ hb
  refine ⟨⟨e1.bytes ++ e2.bytes, e2.part⟩, by simp [Emission.andThen, h2], hb2, ?_, ?_⟩
  · simp only [List.length_append, hl, hl2, hr]; omega
  · simp only [hr2, hr]; omega

theorem emitIfFull_spec (o : Order) {p : Acc} (hc : p.carrier = .w8) (hl : p.len ≤ 8) (hv : p.Clean) :
    ∃ e, emitIfFull o p = some e ∧ e.part.Boundary ∧ e.bytes.length = p.len / 8 ∧ e.part.len = p.len % 8 := by
  by_cases h : p.len = 8
  · obtain ⟨r, p', hpop, hc', hl', hv', -⟩ := pop_spec o (n := 8) (by omega) hv
    refine ⟨⟨[byteOf r], p'⟩, ?_, ⟨hc'.trans hc, ?_, hv'⟩, ?_, ?_⟩
    · simp [emitIfFull, Acc.isFull, hc, h, hpop, Carrier.width]
    · show p'.len ≤ 7; omega
    · show 1 = p.len / 8; omega
    · show p'.len = p.len % 8; omega
  · refine ⟨⟨[], p⟩, ?_, ⟨hc, ?_, hv⟩, ?_, ?_⟩
    · simp [emitIfFull, Acc.isFull, hc, h, Carrier.width]
    · show p.len ≤ 7; omega
    · show 0 = p.len / 8; omega
    · show p.len = p.len % 8; omega

theorem writeBitPath_moves (o : Order) (b : Bool) {p : Acc} (hp : p.Boundary) :
    Moves (writeBitPath o b p) p 1 := by
  have := hp.len
  obtain ⟨p', hpush, hc, hl, hv⟩ := push_spec o (n := 1) (v := bitValue b)
    (by rw [hp.carrier]; show p.len + 1 ≤ 8; omega) (by cases b <;> simp [bitValue]) hp.clean
  obtain ⟨e, he, hb, hn, hr⟩ := emitIfFull_spec o (hc.trans hp.carrier) (by omega) hv
  exact ⟨e, by simp [writeBitPath, hpush, he], hb, by rw [hn, hl], by rw [hr, hl]⟩

theorem drainBytes_spec (o : Order) (k : Nat) {w : Acc} (hk : 8 * k ≤ w.len) (hw : w.Clean) :
    ∃ bs w', drainBytes o k w = some (bs, w') ∧ bs.length = k ∧ w'.len = w.len - 8 * k ∧ w'.Clean := by
  induction k generalizing w with
  | zero => exact ⟨[], w, rfl, rfl, by omega, hw⟩
  | succ k ih =>
    obtain ⟨r, w1, hpop, -, hl1, hv1, -⟩ := pop_spec o (n := 8) (by omega) hw
    obtain ⟨bs, w2, hd, hlen, hl2, hv2⟩ := ih (by omega) hv1
    exact ⟨byteOf r :: bs, w2, by simp [drainBytes, hpop, hd], by simp [hlen], by omega, hv2⟩

/-- The slow path's fill step always completes a byte (C2), and leaves P empty. -/
theorem fillStep_spec (o : Order) {w p : Acc} (hp : p.Boundary) (hw : w.Clean) (hr : 8 - p.len ≤ w.len) :
    ∃ e w', fillStep o w p = some (e, w') ∧ e.bytes.length = 1 ∧ e.part.carrier = .w8 ∧ e.part.len = 0 ∧
      e.part.Clean ∧ w'.len = w.len - (8 - p.len) ∧ w'.Clean := by
  have hl7 := hp.len
  have hroom : min p.room w.len = 8 - p.len := by simp [Acc.room, hp.carrier, Carrier.width]; omega
  obtain ⟨v, w', hpop, -, hlw, hvw, hv⟩ := pop_spec o (n := 8 - p.len) hr hw
  obtain ⟨p', hpush, hc, hl, hv'⟩ := push_spec o (n := 8 - p.len) (v := v)
    (by rw [hp.carrier]; show p.len + (8 - p.len) ≤ 8; omega) hv hp.clean
  obtain ⟨e, he, hb, hn, hlen⟩ := emitIfFull_spec o (hc.trans hp.carrier) (by omega) hv'
  refine ⟨e, w', by simp [fillStep, hroom, hpop, hpush, he], by rw [hn]; omega, hb.carrier, by rw [hlen]; omega,
    hb.clean, hlw, hvw⟩

theorem carryStep_spec (o : Order) {w p : Acc} (hc : p.carrier = .w8) (hl : p.len = 0) (hp : p.Clean)
    (hw : w.Clean) (hw7 : w.len ≤ 7) :
    ∃ p', carryStep o w p = some p' ∧ p'.Boundary ∧ p'.len = w.len := by
  obtain ⟨v, w', hpop, -, -, -, hv⟩ := pop_spec o (n := w.len) le_rfl hw
  obtain ⟨p', hpush, hc', hl', hv'⟩ := push_spec o (n := w.len) (v := v)
    (by rw [hc]; show p.len + w.len ≤ 8; omega) hv hp
  exact ⟨p', by simp [carryStep, hpop, hpush], ⟨hc'.trans hc, by omega, hv'⟩, by omega⟩

/-- `pack` with operands that fit: it answers, emits `(PLEN + bits) div 8` bytes, and leaves
`(PLEN + bits) mod 8` bits pending (R112, R113, R116). -/
theorem pack_moves (o : Order) {c : Carrier} {bits value : Nat} {p : Acc} (hp : p.Boundary)
    (hb : bits ≤ c.width) (hv : value < 2 ^ bits) : Moves (pack o c bits value p) p bits := by
  have hl7 := hp.len
  have hroom : p.room = 8 - p.len := by simp [Acc.room, hp.carrier, Carrier.width]
  by_cases h : bits < 8 - p.len
  · obtain ⟨p', hpush, hc, hl, hv'⟩ := push_spec o (n := bits)
      (by rw [hp.carrier]; show p.len + bits ≤ 8; omega) hv hp.clean
    refine ⟨⟨[], p'⟩, by simp [pack, hroom, h, hpush], ⟨hc.trans hp.carrier, ?_, hv'⟩, ?_, ?_⟩
    · show p'.len ≤ 7; omega
    · show 0 = _; omega
    · show p'.len = _; omega
  · obtain ⟨e, w1, hfill, hn, hc1, hl1, hv1, hlw1, hw1⟩ :=
      fillStep_spec o (w := ⟨c, bits, value⟩) hp hv (by show 8 - p.len ≤ bits; omega)
    obtain ⟨bs, w2, hdrain, hbs, hlw2, hw2⟩ := drainBytes_spec o (w1.len / 8) (w := w1) (by omega) hw1
    obtain ⟨p', hcarry, hb', hl'⟩ := carryStep_spec o hc1 hl1 hv1 hw2 (by omega)
    have hlw1' : w1.len = bits - (8 - p.len) := hlw1
    refine ⟨⟨e.bytes ++ bs, p'⟩, ?_, hb', ?_, ?_⟩
    · simp [pack, hroom, h, packSlow, seed_spec hb hv, hfill, hdrain, hcarry]
    · simp only [List.length_append, hn, hbs]; omega
    · show p'.len = _; omega

theorem bytesPath_moves (o : Order) (buf : List Byte) {p : Acc} (hp : p.Boundary) :
    Moves (bytesPath o buf p) p (8 * buf.length) := by
  induction buf generalizing p with
  | nil => exact Moves.nothing hp
  | cons b rest ih =>
    have h := (pack_moves o (c := .w8) (bits := 8) hp le_rfl b.isLt).andThen (fun q hq => ih hq)
    rw [show 8 * (b :: rest).length = 8 + 8 * rest.length by simp; ring]
    exact h

theorem runPattern_lt (fill : Bool) (m : Nat) : runPattern fill m < 2 ^ m := by
  have := Nat.two_pow_pos m
  cases fill <;> simp [runPattern, ones]

theorem chunksPath_moves (o : Order) (fill : Bool) (k : Nat) {p : Acc} (hp : p.Boundary) :
    Moves (chunksPath o fill k p) p (64 * k) := by
  induction k generalizing p with
  | zero => exact Moves.nothing hp
  | succ k ih =>
    have h := (pack_moves o (c := .w64) (bits := 64) hp le_rfl (runPattern_lt fill 64)).andThen
      (fun q hq => ih hq)
    rw [show 64 * (k + 1) = 64 + 64 * k by ring]
    exact h

theorem remainderPath_moves (o : Order) (fill : Bool) {m : Nat} (hm : m ≤ 64) {p : Acc} (hp : p.Boundary) :
    Moves (remainderPath o fill m p) p m := by
  by_cases h : m = 0
  · subst h; exact Moves.nothing hp
  · have hw : m ≤ (unaryCarrier m).width := by
      unfold unaryCarrier; split
      · show m ≤ 32; omega
      · show m ≤ 64; omega
    simpa [remainderPath, h] using pack_moves o hp hw (runPattern_lt fill m)

/-- A unary command writes n + 1 stream bits (R149). -/
theorem unaryPath_moves (o : Order) (fill : Bool) (n : Nat) {p : Acc} (hp : p.Boundary) :
    Moves (unaryPath o fill n p) p (n + 1) := by
  have hm : n - 64 * unaryChunks n ≤ 64 := by unfold unaryChunks; omega
  have h := ((chunksPath_moves o fill (unaryChunks n) hp).andThen
    (fun q hq => remainderPath_moves o fill hm hq)).andThen (fun q hq => writeBitPath_moves o (!fill) hq)
  rwa [show 64 * unaryChunks n + (n - 64 * unaryChunks n) + 1 = n + 1 by unfold unaryChunks; omega] at h

/-- BYTE_ALIGN writes as many zero bits as are missing to the byte boundary (R161), in any number of rounds
that is not smaller. -/
theorem alignLoop_moves (o : Order) (rounds : Nat) {p : Acc} (hp : p.Boundary)
    (hr : (8 - p.len) % 8 ≤ rounds) : Moves (alignLoop o rounds p) p ((8 - p.len) % 8) := by
  have hl7 := hp.len
  induction rounds generalizing p with
  | zero =>
    have : p.len = 0 := by omega
    simpa [alignLoop, Acc.isEmpty, this] using Moves.nothing hp
  | succ k ih =>
    by_cases h : p.len = 0
    · simpa [alignLoop, Acc.isEmpty, h] using Moves.nothing hp
    · obtain ⟨e1, h1, hb, hn, hl⟩ := writeBitPath_moves o false hp
      obtain ⟨e2, h2, hb2, hn2, hl2⟩ := ih hb (by omega) hb.len
      refine ⟨⟨e1.bytes ++ e2.bytes, e2.part⟩, ?_, hb2, ?_, ?_⟩
      · simp [alignLoop, Acc.isEmpty, h, Emission.andThen, h1, h2]
      · simp only [List.length_append, hn, hn2]; omega
      · simp only [hl2]; omega

end Sys2Proof.Machine
end

