-- ==== Sys2Proof/Laws/State.lean ====
section
/-! SUPPORT. One lemma per field per update of the state, each true by rfl. -/

namespace Sys2Proof.Machine

section
variable (s : State) (r : Response) (a : Acc) (k : Sink) (e : ErrInfo) (o : Order)

@[simp] theorem respond_order : (s.respond r).order = s.order := rfl
@[simp] theorem respond_plen : (s.respond r).plen = s.plen := rfl
@[simp] theorem respond_pval : (s.respond r).pval = s.pval := rfl
@[simp] theorem respond_failed : (s.respond r).failed = s.failed := rfl
@[simp] theorem respond_sink : (s.respond r).sink = s.sink := rfl
@[simp] theorem respond_rsps : (s.respond r).rsps = s.rsps ++ [r] := rfl
@[simp] theorem respond_inputs : (s.respond r).inputs = s.inputs := rfl

@[simp] theorem setPart_order : (s.setPart a).order = s.order := rfl
@[simp] theorem setPart_plen : (s.setPart a).plen = BitVec.ofNat 4 a.len := rfl
@[simp] theorem setPart_pval : (s.setPart a).pval = BitVec.ofNat 8 a.val := rfl
@[simp] theorem setPart_failed : (s.setPart a).failed = s.failed := rfl
@[simp] theorem setPart_sink : (s.setPart a).sink = s.sink := rfl
@[simp] theorem setPart_rsps : (s.setPart a).rsps = s.rsps := rfl
@[simp] theorem setPart_inputs : (s.setPart a).inputs = s.inputs := rfl

@[simp] theorem takeInvalidInput_eq : s.takeInvalidInput = s.respond ⟨.invalidInput, 0, 0⟩ := rfl
@[simp] theorem refuseFailed_eq : s.refuseFailed = s.respond ⟨.sinkFailure, 0, 0⟩ := rfl

@[simp] theorem takeSinkFailure_order : (s.takeSinkFailure k e).order = s.order := rfl
@[simp] theorem takeSinkFailure_failed : (s.takeSinkFailure k e).failed = true := rfl
@[simp] theorem takeSinkFailure_txns : (s.takeSinkFailure k e).sink.txns = k.txns := rfl
@[simp] theorem takeSinkFailure_script : (s.takeSinkFailure k e).sink.script = k.script := rfl
@[simp] theorem takeSinkFailure_rsps :
    (s.takeSinkFailure k e).rsps = s.rsps ++ [⟨.sinkFailure, 0, e⟩] := rfl
@[simp] theorem takeSinkFailure_inputs : (s.takeSinkFailure k e).inputs = s.inputs := rfl

@[simp] theorem resetBlock_order : (s.resetBlock o).order = o := rfl
@[simp] theorem resetBlock_plen : (s.resetBlock o).plen = 0 := rfl
@[simp] theorem resetBlock_pval : (s.resetBlock o).pval = 0 := rfl
@[simp] theorem resetBlock_failed : (s.resetBlock o).failed = false := rfl
@[simp] theorem resetBlock_sink : (s.resetBlock o).sink = s.sink := rfl
@[simp] theorem resetBlock_rsps : (s.resetBlock o).rsps = s.rsps := rfl
@[simp] theorem resetBlock_inputs : (s.resetBlock o).inputs = s.inputs := rfl

@[simp] theorem part_carrier : s.part.carrier = .w8 := rfl
@[simp] theorem part_len : s.part.len = s.plen.toNat := rfl
@[simp] theorem part_val : s.part.val = s.pval.toNat := rfl

@[simp] theorem record_txns (t : Txn) : (k.record t).txns = k.txns ++ [t] := rfl
@[simp] theorem record_script (t : Txn) : (k.record t).script = k.script.tail := rfl
end

@[simp] theorem taken_accepted (b : List Byte) : (Txn.accepted b).taken = b := rfl
@[simp] theorem taken_failed (b : List Byte) (e : ErrInfo) (n : Nat) :
    (Txn.failed b e n).taken = b.take n := rfl
@[simp] theorem taken_abandoned (b : List Byte) (n : Nat) : (Txn.abandoned b n).taken = b.take n := rfl

@[simp] theorem width_w8 : Carrier.w8.width = 8 := rfl
@[simp] theorem width_w16 : Carrier.w16.width = 16 := rfl
@[simp] theorem width_w32 : Carrier.w32.width = 32 := rfl
@[simp] theorem width_w64 : Carrier.w64.width = 64 := rfl
@[simp] theorem width_w128 : Carrier.w128.width = 128 := rfl

end Sys2Proof.Machine
end

