-- ==== Sys2Proof/Laws/Sink.lean ====
section
/-! SUPPORT. What presenting the transactions of one command does to the sink, said once (R41 to R44, R202). -/

namespace Sys2Proof.Machine

theorem sinkWrite_cases (bytes : List Byte) (k : Sink) :
    sinkWrite bytes k = (k.record (.accepted bytes), none) ∨
      ∃ e n, sinkWrite bytes k = (k.record (.failed bytes e n), some e) := by
  unfold sinkWrite
  cases h : k.answer with
  | ok => exact .inl (by simp)
  | fail e n => exact .inr ⟨e, n, by simp⟩

/-- If no transaction failed, all were accepted, in order. -/
theorem present_none {ts : List (List Byte)} {k k' : Sink} (h : present ts k = (k', none)) :
    k'.txns = k.txns ++ ts.map Txn.accepted := by
  induction ts generalizing k with
  | nil => simp only [present, Prod.mk.injEq, and_true] at h; simp [h]
  | cons bytes rest ih =>
    obtain hw | ⟨e, n, hw⟩ := sinkWrite_cases bytes k
    · simp only [present, hw] at h
      simp [ih h]
    · simp [present, hw] at h

/-- If one failed, those before it were accepted and none was presented after it. -/
theorem present_some {ts : List (List Byte)} {k k' : Sink} {e : ErrInfo} (h : present ts k = (k', some e)) :
    ∃ pre bytes post n, ts = pre ++ bytes :: post ∧
      k'.txns = k.txns ++ pre.map Txn.accepted ++ [.failed bytes e n] := by
  induction ts generalizing k with
  | nil => simp [present] at h
  | cons bytes rest ih =>
    obtain hw | ⟨e', n, hw⟩ := sinkWrite_cases bytes k
    · simp only [present, hw] at h
      obtain ⟨pre, b, post, n, rfl, ht⟩ := ih h
      exact ⟨bytes :: pre, b, post, n, rfl, by simp [ht]⟩
    · simp only [present, hw, Prod.mk.injEq, Option.some.injEq] at h
      obtain ⟨rfl, rfl⟩ := h
      exact ⟨[], bytes, rest, n, rfl, by simp⟩

theorem answerAt_zero (k : Sink) : k.answerAt 0 = k.answer := by
  obtain ⟨txns, script, draws⟩ := k
  cases script <;> rfl

theorem answerAt_record (k : Sink) (t : Txn) (j : Nat) : (k.record t).answerAt j = k.answerAt (j + 1) := by
  obtain ⟨txns, script, draws⟩ := k
  cases script <;> simp [Sink.answerAt, Sink.record, Nat.add_assoc, Nat.add_comm 1]

/-- A sink whose next answers are `ok` accepts as many transactions. -/
theorem present_ok {ts : List (List Byte)} {k : Sink} (h : ∀ j < ts.length, k.answerAt j = .ok) :
    present ts k =
      (⟨k.txns ++ ts.map Txn.accepted, k.script.drop ts.length,
        k.draws + (ts.length - k.script.length)⟩, none) := by
  induction ts generalizing k with
  | nil => simp [present]
  | cons bytes rest ih =>
    have h0 : k.answer = .ok := by rw [← answerAt_zero]; exact h 0 (by simp)
    have hr : ∀ j < rest.length, (k.record (.accepted bytes)).answerAt j = .ok := fun j hj => by
      rw [answerAt_record]; exact h (j + 1) (by simpa using hj)
    simp only [present, sinkWrite, h0, ih hr]
    obtain ⟨txns, script, draws⟩ := k
    cases script
    · simp [Sink.record]; omega
    · simp [Sink.record]

/-- A sink that answers `ok` j times and then fails takes the first j transactions and part of the next. -/
theorem present_fail {ts : List (List Byte)} {k : Sink} {j : Nat} {bytes : List Byte} {e : ErrInfo} {n : Nat}
    {later : List SinkAnswer} (hj : ts[j]? = some bytes)
    (h : k.script = List.replicate j AnswerOf.ok ++ .fail e n :: later) :
    present ts k =
      (⟨k.txns ++ (ts.take j).map Txn.accepted ++ [.failed bytes e n], later, k.draws⟩, some e) := by
  induction ts generalizing k j with
  | nil => simp at hj
  | cons b rest ih =>
    obtain ⟨txns, script, draws⟩ := k
    cases j with
    | zero =>
      simp only [List.getElem?_cons_zero, Option.some.injEq] at hj
      simp only [List.replicate_zero, List.nil_append] at h
      subst h hj
      simp [present, sinkWrite, Sink.answer, Sink.record]
    | succ j =>
      simp only [List.getElem?_cons_succ] at hj
      simp only [List.replicate_succ, List.cons_append] at h
      subst h
      simp [present, sinkWrite, Sink.answer, Sink.record, ih (k := ⟨_, _, draws⟩) hj rfl]

/-- What completing a command can do, said once: all its transactions were accepted and P is written, or one
failed and the command ended in SinkFailure. -/
theorem complete_cases (s : State) (ts : List (List Byte)) (p : Acc) (rdata : BitVec 12) :
    (∃ k, present ts s.sink = (k, none) ∧ k.txns = s.sink.txns ++ ts.map Txn.accepted ∧
        s.complete ts p rdata = ({ s with sink := k }.setPart p).respond ⟨.ok, rdata, 0⟩) ∨
      (∃ k e pre bytes post n, present ts s.sink = (k, some e) ∧ ts = pre ++ bytes :: post ∧
        k.txns = s.sink.txns ++ pre.map Txn.accepted ++ [.failed bytes e n] ∧
        s.complete ts p rdata = s.takeSinkFailure k e) := by
  rcases h : present ts s.sink with ⟨k, _ | e⟩
  · exact .inl ⟨k, rfl, present_none h, by simp [State.complete, h]⟩
  · obtain ⟨pre, bytes, post, n, hts, ht⟩ := present_some h
    exact .inr ⟨k, e, pre, bytes, post, n, rfl, hts, ht, by simp [State.complete, h]⟩

/-! The sink's failure information under another name (R15). -/

section
variable (f : ErrInfo → ErrInfo) (s : State) (k : Sink)

@[simp] theorem renamed_order : (s.renamed f).order = s.order := rfl
@[simp] theorem renamed_plen : (s.renamed f).plen = s.plen := rfl
@[simp] theorem renamed_pval : (s.renamed f).pval = s.pval := rfl
@[simp] theorem renamed_failed : (s.renamed f).failed = s.failed := rfl
@[simp] theorem renamed_sink : (s.renamed f).sink = s.sink.renamed f := rfl
@[simp] theorem renamed_rsps : (s.renamed f).rsps = s.rsps.map (Response.renamed f) := rfl
@[simp] theorem renamed_inputs : (s.renamed f).inputs = s.inputs := rfl
@[simp] theorem renamed_part : (s.renamed f).part = s.part := rfl
@[simp] theorem renamed_txns : (k.renamed f).txns = k.txns.map (Txn.renamed f) := rfl
@[simp] theorem renamed_script : (k.renamed f).script = k.script.map (AnswerOf.renamed f) := rfl
@[simp] theorem renamed_draws : (k.renamed f).draws = k.draws := rfl
end

/-- Presenting transactions takes nothing back. -/
theorem present_length (ts : List (List Byte)) (k : Sink) :
    k.txns.length ≤ (present ts k).1.txns.length := by
  induction ts generalizing k with
  | nil => simp [present]
  | cons bytes rest ih =>
    obtain h | ⟨e, n, h⟩ := sinkWrite_cases bytes k
    · have := ih (k.record (.accepted bytes))
      simp only [record_txns, List.length_append, List.length_singleton] at this
      simp only [present, h]
      omega
    · simp [present, h]

/-- Presenting carries the sink's information along, as long as the script has the answers. -/
theorem present_renamed (f : ErrInfo → ErrInfo) {ts : List (List Byte)} {k : Sink}
    (h : (present ts k).1.txns.length ≤ k.txns.length + k.script.length) :
    present ts (k.renamed f) = ((present ts k).1.renamed f, (present ts k).2.map f) := by
  induction ts generalizing k with
  | nil => simp [present]
  | cons bytes rest ih =>
    obtain ⟨txns, script, draws⟩ := k
    cases script with
    | nil =>
      exfalso
      obtain hw | ⟨e, n, hw⟩ := sinkWrite_cases bytes ⟨txns, [], draws⟩
      · simp only [present, hw] at h
        have := present_length rest (Sink.record ⟨txns, [], draws⟩ (.accepted bytes))
        simp only [record_txns, List.length_append, List.length_singleton, List.length_nil] at this h
        omega
      · simp [present, hw] at h
    | cons a script =>
      cases a with
      | ok =>
        simp only [present, sinkWrite, Sink.answer, Sink.renamed, List.map_cons, AnswerOf.renamed] at *
        have := ih (k := ⟨txns ++ [.accepted bytes], script, draws⟩)
          (by simpa [Sink.record, Nat.add_assoc, Nat.add_comm 1] using h)
        simpa [Sink.record, Txn.renamed] using this
      | fail e n =>
        simp [present, sinkWrite, Sink.answer, Sink.renamed, AnswerOf.renamed, Sink.record, Txn.renamed]

end Sys2Proof.Machine
end

