-- ==== Sys2Proof/Laws/Exec.lean ====
section
/-! SUPPORT. What any command can do, said once: it is refused, rejected, or it completes a plan (the
transactions it presents, what it leaves in P, what it answers). -/

namespace Sys2Proof.Machine

/-- What a command that is neither refused nor rejected sets out to do. -/
structure Plan where
  txns  : List (List Byte)
  part  : Acc
  rdata : BitVec 12

/-- The plan of a datapath: each byte in a transaction of its own. -/
def planOf (e : Option Emission) : Option Plan :=
  e.map (fun e => ⟨e.bytes.map (fun b => [b]), e.part, 0⟩)

def plan (s : State) : Instr → Option Plan
  | .writeBit b => planOf (writeBitPath s.order b s.part)
  | .writeU8 n v => planOf (pack s.order .w8 n.toNat v.toNat s.part)
  | .writeU16 n v => planOf (pack s.order .w16 n.toNat v.toNat s.part)
  | .writeU32 n v => planOf (pack s.order .w32 n.toNat v.toNat s.part)
  | .writeU64 n v => planOf (pack s.order .w64 n.toNat v.toNat s.part)
  | .writeU128 n v => planOf (pack s.order .w128 n.toNat v.toNat s.part)
  | .writeI8 n v => planOf (pack s.order .w8 n.toNat (packSigned n.toNat v.toInt) s.part)
  | .writeI16 n v => planOf (pack s.order .w16 n.toNat (packSigned n.toNat v.toInt) s.part)
  | .writeI32 n v => planOf (pack s.order .w32 n.toNat (packSigned n.toNat v.toInt) s.part)
  | .writeI64 n v => planOf (pack s.order .w64 n.toNat (packSigned n.toNat v.toInt) s.part)
  | .writeI128 n v => planOf (pack s.order .w128 n.toNat (packSigned n.toNat v.toInt) s.part)
  | .writeBytes buf =>
    if s.aligned then some ⟨wholeBuffer buf, s.part, 0⟩ else planOf (bytesPath s.order buf s.part)
  | .writeUnary0 n => planOf (unaryPath s.order true n.toNat s.part)
  | .writeUnary1 n => planOf (unaryPath s.order false n.toNat s.part)
  | .byteAligned => some ⟨[], s.part, alignedRdata s.aligned⟩
  | .byteAlign => planOf (alignLoop s.order 8 s.part)
  | .unwritten => some ⟨[], s.part, unwrittenRdata s.plen s.pval⟩
  | .dispose => some ⟨[], ⟨.w8, 0, 0⟩, 0⟩

theorem runPath_eq (s : State) (e : Option Emission) :
    s.runPath e =
      match planOf e with
      | none => .refused .accumulatorPrecondition
      | some q => .next (s.complete q.txns q.part q.rdata) := by
  cases e <;> rfl

@[simp] theorem setPart_part (s : State) : s.setPart s.part = s := by
  simp [State.setPart, State.part]

theorem complete_nil (s : State) (p : Acc) (rdata : BitVec 12) :
    s.complete [] p rdata = (s.setPart p).respond ⟨.ok, rdata, 0⟩ := rfl

/-- What a command comes to whose validation is `ok` and whose plan is `q`. -/
def answerWith (s : State) (ok : Bool) (q : Option Plan) : Host.Outcome State Fault Refusal :=
  if s.failed then .next s.refuseFailed
  else if ok then
    match q with
    | none => .refused .accumulatorPrecondition
    | some q => .next (s.complete q.txns q.part q.rdata)
  else .next s.takeInvalidInput

theorem writeUnsigned_eq (c : Carrier) (bits value : Nat) (s : State) :
    writeUnsigned c bits value s =
      answerWith s (fitsUnsigned c bits value) (planOf (pack s.order c bits value s.part)) := by
  simp only [writeUnsigned, runPath_eq, State.unlessFailed, answerWith]

theorem writeSigned_eq (c : Carrier) (bits : Nat) (value : Int) (s : State) :
    writeSigned c bits value s =
      answerWith s (fitsSigned c bits value)
        (planOf (pack s.order c bits (packSigned bits value) s.part)) := by
  simp only [writeSigned, runPath_eq, State.unlessFailed, answerWith]

theorem unlessFailed_runPath (s : State) (e : Option Emission) :
    s.unlessFailed (s.runPath e) = answerWith s true (planOf e) := by
  simp only [runPath_eq, State.unlessFailed, answerWith, if_true]

/-- Every command, in one equation: the refusal while FAILED = 1, then the validation, then its plan (R205). -/
theorem exec_eq (i : Instr) (s : State) : exec i s = answerWith s (fits i) (plan s i) := by
  cases i with
  | writeBytes buf =>
    by_cases h : s.aligned
    · simp only [exec, execWriteBytes, plan, h, if_true, fits, answerWith, State.unlessFailed]
    · simpa only [exec, execWriteBytes, plan, h, fits, Bool.false_eq_true, if_false] using
        unlessFailed_runPath s _
  | byteAligned => simp only [exec, execByteAligned, State.unlessFailed, fits, plan, complete_nil, answerWith,
      setPart_part, if_true]
  | unwritten => simp only [exec, execUnwritten, State.unlessFailed, fits, plan, complete_nil, answerWith,
      setPart_part, if_true]
  | dispose => rfl
  | writeBit b => exact unlessFailed_runPath s _
  | byteAlign => exact unlessFailed_runPath s _
  | writeUnary0 n => exact unlessFailed_runPath s _
  | writeUnary1 n => exact unlessFailed_runPath s _
  | writeU8 n v => exact writeUnsigned_eq ..
  | writeU16 n v => exact writeUnsigned_eq ..
  | writeU32 n v => exact writeUnsigned_eq ..
  | writeU64 n v => exact writeUnsigned_eq ..
  | writeU128 n v => exact writeUnsigned_eq ..
  | writeI8 n v => exact writeSigned_eq ..
  | writeI16 n v => exact writeSigned_eq ..
  | writeI32 n v => exact writeSigned_eq ..
  | writeI64 n v => exact writeSigned_eq ..
  | writeI128 n v => exact writeSigned_eq ..

/-- The inversion of `exec`: a command that answers a next state was refused, rejected, or completed its plan. -/
theorem exec_cases {i : Instr} {s t : State} (h : exec i s = .next t) :
    (s.failed = true ∧ t = s.refuseFailed) ∨
    (s.failed = false ∧ fits i = false ∧ t = s.takeInvalidInput) ∨
    (s.failed = false ∧ fits i = true ∧ ∃ q, plan s i = some q ∧ t = s.complete q.txns q.part q.rdata) := by
  rw [exec_eq] at h
  unfold answerWith at h
  cases hf : s.failed
  · cases hv : fits i
    · simp only [hf, hv, Bool.false_eq_true, if_false, Host.Outcome.next.injEq] at h
      exact .inr (.inl ⟨rfl, rfl, h.symm⟩)
    · cases hq : plan s i with
      | none => simp [hf, hv, hq] at h
      | some q =>
        simp only [hf, hv, hq, Bool.false_eq_true, if_false, if_true, Host.Outcome.next.injEq] at h
        exact .inr (.inr ⟨rfl, rfl, q, rfl, h.symm⟩)
  · simp only [hf, if_true, Host.Outcome.next.injEq] at h
    exact .inl ⟨rfl, h.symm⟩

/-- The bounds that the validation of WRITE gives (R111). -/
theorem fitsUnsigned_iff {c : Carrier} {bits value : Nat} (hv : value < 2 ^ c.width) :
    fitsUnsigned c bits value = true ↔ bits ≤ c.width ∧ value < 2 ^ bits := by
  unfold fitsUnsigned
  rcases Nat.lt_trichotomy bits c.width with h | h | h
  · by_cases h2 : 2 ^ bits ≤ value <;> simp [h, h2, show ¬(bits > c.width) by omega, le_of_lt h]; omega
  · subst h; simpa using hv
  · simp [h, show ¬(bits ≤ c.width) by omega]

theorem packSigned_lt (bits : Nat) (value : Int) : packSigned bits value < 2 ^ bits := by
  have h := Int.emod_lt_of_pos value (b := (2 : Int) ^ bits) (by positivity)
  have h0 := Int.emod_nonneg value (b := (2 : Int) ^ bits) (by positivity)
  unfold packSigned
  zify [h0]
  omega

theorem fitsSigned_le {c : Carrier} {bits : Nat} {value : Int} (h : fitsSigned c bits value = true) :
    bits ≤ c.width := by
  by_contra hn
  simp [fitsSigned, show bits > c.width by omega] at h

theorem Moves.planOf_boundary {e : Option Emission} {p : Acc} {n : Nat} (h : Moves e p n) :
    ∃ q, planOf e = some q ∧ q.part.Boundary := by
  obtain ⟨e', rfl, hb, -, -⟩ := h
  exact ⟨_, rfl, hb⟩

/-- From P at a command boundary every command that passes its validation has a plan, and the plan leaves P at a
command boundary (R97, R116). -/
theorem plan_boundary {s : State} (hp : s.part.Boundary) {i : Instr} (hf : fits i = true) :
    ∃ q, plan s i = some q ∧ q.part.Boundary := by
  cases i with
  | writeBit b => exact (writeBitPath_moves s.order b hp).planOf_boundary
  | writeU8 n v =>
    obtain ⟨hb, hv⟩ := (fitsUnsigned_iff v.isLt).mp hf
    exact (pack_moves s.order hp hb hv).planOf_boundary
  | writeU16 n v =>
    obtain ⟨hb, hv⟩ := (fitsUnsigned_iff v.isLt).mp hf
    exact (pack_moves s.order hp hb hv).planOf_boundary
  | writeU32 n v =>
    obtain ⟨hb, hv⟩ := (fitsUnsigned_iff v.isLt).mp hf
    exact (pack_moves s.order hp hb hv).planOf_boundary
  | writeU64 n v =>
    obtain ⟨hb, hv⟩ := (fitsUnsigned_iff v.isLt).mp hf
    exact (pack_moves s.order hp hb hv).planOf_boundary
  | writeU128 n v =>
    obtain ⟨hb, hv⟩ := (fitsUnsigned_iff v.isLt).mp hf
    exact (pack_moves s.order hp hb hv).planOf_boundary
  | writeI8 n v => exact (pack_moves s.order hp (fitsSigned_le hf) (packSigned_lt _ _)).planOf_boundary
  | writeI16 n v => exact (pack_moves s.order hp (fitsSigned_le hf) (packSigned_lt _ _)).planOf_boundary
  | writeI32 n v => exact (pack_moves s.order hp (fitsSigned_le hf) (packSigned_lt _ _)).planOf_boundary
  | writeI64 n v => exact (pack_moves s.order hp (fitsSigned_le hf) (packSigned_lt _ _)).planOf_boundary
  | writeI128 n v => exact (pack_moves s.order hp (fitsSigned_le hf) (packSigned_lt _ _)).planOf_boundary
  | writeBytes buf =>
    by_cases h : s.aligned
    · exact ⟨⟨wholeBuffer buf, s.part, 0⟩, by simp only [plan, h, if_true], hp⟩
    · simpa [plan, h] using (bytesPath_moves s.order buf hp).planOf_boundary
  | writeUnary0 n => exact (unaryPath_moves s.order true n.toNat hp).planOf_boundary
  | writeUnary1 n => exact (unaryPath_moves s.order false n.toNat hp).planOf_boundary
  | byteAligned => exact ⟨_, rfl, hp⟩
  | byteAlign => exact (alignLoop_moves s.order 8 hp (by omega)).planOf_boundary
  | unwritten => exact ⟨_, rfl, hp⟩
  | dispose => exact ⟨_, rfl, rfl, Nat.zero_le _, Nat.one_pos⟩

/-- An accumulator at a command boundary fits the registers PLEN and PVAL. -/
theorem Acc.Boundary.toNat_registers {p : Acc} (hp : p.Boundary) :
    (BitVec.ofNat 4 p.len).toNat = p.len ∧ (BitVec.ofNat 8 p.val).toNat = p.val := by
  have hl := hp.len
  have hv : p.val < 2 ^ 8 :=
    lt_of_lt_of_le hp.clean (Nat.pow_le_pow_right (by omega) (by omega))
  simp only [BitVec.toNat_ofNat]
  exact ⟨Nat.mod_eq_of_lt (by omega), Nat.mod_eq_of_lt hv⟩

end Sys2Proof.Machine
end

