-- ==== Sys2Proof/Laws/PerInstr.lean ====
section
/-! SUPPORT. Statements about every command, made per constructor. The family OpcodeFields: OP, WTAG and RSV of a
command's word are those that the tables of R62 and R63 give for its row. -/

namespace Sys2Proof.Laws.OpcodeFields

/-- OP and WTAG of each row, written out from R62 and R63. -/
def row : Instr → BitVec 4 × BitVec 3
  | .writeBit _ => (0x0, 0)
  | .writeU8 _ _ => (0x1, 0)
  | .writeU16 _ _ => (0x1, 1)
  | .writeU32 _ _ => (0x1, 2)
  | .writeU64 _ _ => (0x1, 3)
  | .writeU128 _ _ => (0x1, 4)
  | .writeI8 _ _ => (0x2, 0)
  | .writeI16 _ _ => (0x2, 1)
  | .writeI32 _ _ => (0x2, 2)
  | .writeI64 _ _ => (0x2, 3)
  | .writeI128 _ _ => (0x2, 4)
  | .writeBytes _ => (0x3, 0)
  | .writeUnary0 _ => (0x4, 0)
  | .writeUnary1 _ => (0x5, 0)
  | .byteAligned => (0x6, 0)
  | .byteAlign => (0x7, 0)
  | .unwritten => (0x8, 0)
  | .dispose => (0x9, 0)

def Statement (i : Instr) : Prop :=
  ((fieldsOf (encodeWord i)).op, (fieldsOf (encodeWord i)).wtag) = row i ∧ (fieldsOf (encodeWord i)).rsv = 0

theorem writeBit (b : Bool) : Statement (.writeBit b) := by
  simp [Statement, fieldsFor, opOf, row]

theorem writeU8 (n : Count) (v : BitVec 8) : Statement (.writeU8 n v) := by
  simp [Statement, fieldsFor, opOf, wtagOf, row]

theorem writeU16 (n : Count) (v : BitVec 16) : Statement (.writeU16 n v) := by
  simp [Statement, fieldsFor, opOf, wtagOf, row]

theorem writeU32 (n : Count) (v : BitVec 32) : Statement (.writeU32 n v) := by
  simp [Statement, fieldsFor, opOf, wtagOf, row]

theorem writeU64 (n : Count) (v : BitVec 64) : Statement (.writeU64 n v) := by
  simp [Statement, fieldsFor, opOf, wtagOf, row]

theorem writeU128 (n : Count) (v : BitVec 128) : Statement (.writeU128 n v) := by
  simp [Statement, fieldsFor, opOf, wtagOf, row]

theorem writeI8 (n : Count) (v : BitVec 8) : Statement (.writeI8 n v) := by
  simp [Statement, fieldsFor, opOf, wtagOf, row]

theorem writeI16 (n : Count) (v : BitVec 16) : Statement (.writeI16 n v) := by
  simp [Statement, fieldsFor, opOf, wtagOf, row]

theorem writeI32 (n : Count) (v : BitVec 32) : Statement (.writeI32 n v) := by
  simp [Statement, fieldsFor, opOf, wtagOf, row]

theorem writeI64 (n : Count) (v : BitVec 64) : Statement (.writeI64 n v) := by
  simp [Statement, fieldsFor, opOf, wtagOf, row]

theorem writeI128 (n : Count) (v : BitVec 128) : Statement (.writeI128 n v) := by
  simp [Statement, fieldsFor, opOf, wtagOf, row]

theorem writeBytes (buf : List Byte) : Statement (.writeBytes buf) := by
  simp [Statement, fieldsFor, opOf, row]

theorem writeUnary0 (n : Count) : Statement (.writeUnary0 n) := by
  simp [Statement, fieldsFor, opOf, row]

theorem writeUnary1 (n : Count) : Statement (.writeUnary1 n) := by
  simp [Statement, fieldsFor, opOf, row]

theorem byteAligned : Statement .byteAligned := by
  simp [Statement, fieldsFor, opOf, row]

theorem byteAlign : Statement .byteAlign := by
  simp [Statement, fieldsFor, opOf, row]

theorem unwritten : Statement .unwritten := by
  simp [Statement, fieldsFor, opOf, row]

theorem dispose : Statement .dispose := by
  simp [Statement, fieldsFor, opOf, row]

end Sys2Proof.Laws.OpcodeFields
end

