-- ==== Sys2Proof/Laws/Step.lean ====
section
/-! SUPPORT. What the CMD channel hands over and what a step can do, said once (R66, R68, R225, R226). -/

namespace Sys2Proof.Machine

@[simp] theorem gather_all (payload : List Byte) (rest : List Input) :
    gather payload.length (payload.map Input.byte ++ rest) = .all payload rest := by
  induction payload with
  | nil => rfl
  | cons b payload ih => simp [gather, ih, Gathered.cons]

/-- A word followed by its payload is fetched as that command. -/
theorem fetch_beats {w : CmdWord} {payload : List Byte} (h : payload.length = payloadCount w)
    (rest : List Input) : fetch (beatsOf w payload ++ rest) = .command w payload rest := by
  simp [beatsOf, fetch, ← h]

/-- Payload bytes that are not all there yet leave the gathering short. -/
theorem gather_short {arrived : List Byte} {n : Nat} (h : arrived.length < n) :
    gather n (arrived.map Input.byte) = .short := by
  induction arrived generalizing n with
  | nil => cases n with
    | zero => simp at h
    | succ n => rfl
  | cons b arrived ih => cases n with
    | zero => simp at h
    | succ n => simp [gather, ih (n := n) (by simpa using h), Gathered.cons]

/-- A command word where a payload byte is due breaks the gathering. -/
theorem gather_broken {arrived : List Byte} {n : Nat} (h : arrived.length < n) (w : CmdWord)
    (rest : List Input) : gather n (arrived.map Input.byte ++ .word w :: rest) = .broken := by
  induction arrived generalizing n with
  | nil => cases n with
    | zero => simp at h
    | succ n => rfl
  | cons b arrived ih => cases n with
    | zero => simp at h
    | succ n => simp [gather, ih (n := n) (by simpa using h), Gathered.cons]

/-- The decoder reads a command only where the payload is the one the word calls for (R66). -/
theorem payload_length_of_legal {w : CmdWord} {payload : List Byte} {i : Instr}
    (h : decode w payload = .legal i) : payload.length = payloadCount w := by
  by_contra hn
  simp [decode, hn] at h

/-- What a command word is answered with: the command it encodes is run, or it is rejected. -/
theorem runWord_cases {w : CmdWord} {payload : List Byte} {s t : State} (h : runWord w payload s = .next t) :
    (∃ i, decode w payload = .legal i ∧ exec i s = .next t) ∨
      (∃ r, decode w payload = .reserved r ∧ t = s.rejectReserved) := by
  cases hd : decode w payload with
  | legal i => exact .inl ⟨i, rfl, by simpa [runWord, hd] using h⟩
  | reserved r => exact .inr ⟨r, rfl, by simpa [runWord, hd] using h.symm⟩

/-- Without a reset during the next command, the step looks at what is fetched. -/
theorem step_plain {s : State} (h : ∀ o a k later, s.inputs ≠ .strike o a k :: later) :
    step s = stepPlain s := by
  unfold step stepInputs
  split
  · rename_i he; exact absurd he (h _ _ _ _)
  all_goals rfl

theorem step_strike {s : State} {o : Order} {a k : Nat} {later : List Input}
    (h : s.inputs = .strike o a k :: later) : step s = stepStruck o a k later s := by
  simp [step, stepInputs, h]

theorem step_command {s : State} {w : CmdWord} {payload : List Byte} {rest : List Input}
    (hs : s.inputs = beatsOf w payload ++ rest) (h : payload.length = payloadCount w) :
    step s = runWord w payload { s with inputs := rest } := by
  rw [step_plain (by simp [hs, beatsOf])]
  simp [stepPlain, hs, fetch_beats h]

/-- The inversion of the step: nothing to do, a reset event, a command answered, or a command cut off by a
reset. -/
theorem step_cases {s t : State} (h : step s = .next t) :
    t = s ∨
    (∃ o rest later, fetch s.inputs = .reset o rest ∧ t = { s with inputs := later }.resetBlock o) ∨
    (∃ w payload rest, fetch s.inputs = .command w payload rest ∧
      runWord w payload { s with inputs := rest } = .next t) ∨
    (∃ o rest0 a k w payload rest u, fetch s.inputs = .reset o rest0 ∧
      runWord w payload { s with inputs := rest } = .next u ∧
      t = State.strikeReset { s with inputs := rest } u o a k) := by
  by_cases hst : ∃ o a k later, s.inputs = .strike o a k :: later
  · obtain ⟨o, a, k, later, hi⟩ := hst
    rw [step_strike hi, stepStruck] at h
    have hf : fetch s.inputs = .reset o later := by rw [hi]; rfl
    split at h
    case h_1 w payload rest _ =>
      unfold runStruck at h
      split at h
      case h_1 u hu =>
        exact .inr (.inr (.inr ⟨o, later, a, k, w, payload, rest, u, hf, hu, by simpa using h.symm⟩))
      all_goals simp at h
    all_goals exact .inr (.inl ⟨o, later, later, hf, by simpa using h.symm⟩)
  · push Not at hst
    rw [step_plain hst, stepPlain] at h
    split at h
    case h_1 | h_2 => exact .inl (by simpa using h.symm)
    case h_3 w payload rest hf => exact .inr (.inr (.inl ⟨w, payload, rest, hf, h⟩))
    case h_4 o rest hf => exact .inr (.inl ⟨o, rest, rest, hf, by simpa using h.symm⟩)
    all_goals simp at h

end Sys2Proof.Machine
end

