-- ==== Sys2Proof/Tests/Slice0.lean ====
section
/-! SUPPORT. Tests: words, responses and transactions from the vectors of 95_test_vectors.md and
96_test_vectors_derived.md (their ids stand in the names), a smoke test of well-formedness, and for every
obligation with hypotheses a state and operands that meet them (test_witness_...). -/

open Sys2Proof Sys2Proof.Machine

namespace Sys2Proof.Tests

/-- The state an outcome answers, if it answers one. -/
def after (x : Host.Outcome State Fault Refusal) : Option State :=
  match x with
  | .next t => some t
  | .fault _ => none
  | .refused _ => none

theorem next_of_after {x : Host.Outcome State Fault Refusal} {t : State} (h : after x = some t) :
    x = .next t := by
  cases x <;> simp_all [after]

/-- A block at a given alignment, on a sink with these answers to come. -/
def blockAt (o : Order) (plen : BitVec 4) (pval : BitVec 8) (answers : List SinkAnswer) : State :=
  { State.resetWith o with plen := plen, pval := pval, sink := ⟨[], answers, 0⟩ }

/-- The same block after a sink failure. -/
def failedBlock (o : Order) : State := { blockAt o 3 5 [] with failed := true }

/-- What one step from that block with this word and payload shows: the transactions, PLEN, PVAL, the
responses. -/
def shows (s : State) (w : CmdWord) (payload : List Byte) :
    Option (List Txn × BitVec 4 × BitVec 8 × List Response) :=
  (after (step (s.offer w payload))).map (fun t => (t.sink.txns, t.plen, t.pval, t.rsps))

/-- Answered OK with this RDATA. -/
def okWith (rdata : BitVec 12) : List Response := [⟨.ok, rdata, 0⟩]

/-- What one step shows that ends in a sink failure: the transactions, ORDER, FAILED, the responses. The
sink's information reads as 0 here, since its width is a parameter; test_information_is_carried shows it. -/
def showsFailure (s : State) (w : CmdWord) (payload : List Byte) :
    Option (List Txn × Order × Bool × List Response) :=
  (after (step (s.offer w payload))).map
    (fun t => ((t.renamed (fun _ => 0)).sink.txns, t.order, t.failed, (t.renamed (fun _ => 0)).rsps))

/-! Well-formedness. -/

theorem wf_of_replicate (n : Nat) :
    (Instr.writeBytes (List.replicate n 0)).wf = decide (n < 2 ^ 32) := by
  simp only [Instr.wf, List.length_replicate]

theorem test_wf_refuses_payload_of_2_to_the_32 : (Instr.writeBytes (List.replicate (2 ^ 32) 0)).wf = false :=
  (wf_of_replicate (2 ^ 32)).trans (by decide)

theorem test_wf_admits_payload_of_2_to_the_32_less_one :
    (Instr.writeBytes (List.replicate (2 ^ 32 - 1) 0)).wf = true :=
  (wf_of_replicate (2 ^ 32 - 1)).trans (by decide)

/-! Decoding, one word per constructor (R75 and the vectors named). -/

theorem test_decode_writeBit : decode 0x000000000000000000000000000000010000000000 [] =
    .legal (.writeBit true) := by decide
theorem test_decode_writeU8 : decode 0x000000000000000000000000000000050000000301 [] =
    .legal (.writeU8 3 5) := by decide
theorem test_decode_writeU16_W12 : decode 0x00000000000000000000000000000abc0000000c11 [] =
    .legal (.writeU16 12 0xABC) := by decide
theorem test_decode_writeU32 : decode 0x000000000000000000000000000003ff0000000a21 [] =
    .legal (.writeU32 10 0x3FF) := by decide
theorem test_decode_writeU64_W16 : decode 0x00000000000000000123456789abcdef0000004031 [] =
    .legal (.writeU64 64 0x123456789ABCDEF) := by decide
theorem test_decode_writeU128_W20 : decode 0x0000000fffffffffffffffffffffffff0000006441 [] =
    .legal (.writeU128 100 0xFFFFFFFFFFFFFFFFFFFFFFFFF) := by decide
theorem test_decode_writeI8 : decode 0x000000000000000000000000000000fb0000000402 [] =
    .legal (.writeI8 4 (-5)) := by decide
theorem test_decode_writeI16_G10 : decode 0x0000000000000000000000000000f8000000000c12 [] =
    .legal (.writeI16 12 (-0x800)) := by decide
theorem test_decode_writeI32_G12 : decode 0x000000000000000000000000ffff00000000001122 [] =
    .legal (.writeI32 17 (-0x10000)) := by decide
theorem test_decode_writeI64_G13 : decode 0x000000000000000080000000000000000000004032 [] =
    .legal (.writeI64 64 (-0x8000000000000000)) := by decide
theorem test_decode_writeI128_G14 : decode 0xffffffffffffffffffffffffffffffff0000008042 [] =
    .legal (.writeI128 128 (-1)) := by decide
theorem test_decode_writeBytes : decode 0x000000000000000000000000000000000000000203 [0xAB, 0xCD] =
    .legal (.writeBytes [0xAB, 0xCD]) := by decide
theorem test_decode_writeUnary0 : decode 0x000000000000000000000000000000000000000a04 [] =
    .legal (.writeUnary0 10) := by decide
theorem test_decode_writeUnary1_U21 : decode 0x000000000000000000000000000000000000008205 [] =
    .legal (.writeUnary1 130) := by decide
theorem test_decode_byteAligned_A1 : decode 0x000000000000000000000000000000000000000006 [] =
    .legal .byteAligned := by decide
theorem test_decode_byteAlign : decode 0x000000000000000000000000000000000000000007 [] =
    .legal .byteAlign := by decide
theorem test_decode_unwritten_A9 : decode 0x000000000000000000000000000000000000000008 [] =
    .legal .unwritten := by decide
theorem test_decode_dispose_A13 : decode 0x000000000000000000000000000000000000000009 [] =
    .legal .dispose := by decide
/-- A count above every width is a legal encoding (R64). -/
theorem test_decode_largest_count : decode 0x0000000000000000000000000000000000ffffffff01 [] =
    .legal (.writeU8 0xFFFFFFFF 0) := by decide

/-- X1, X2: OP = 0xA and 0xF. -/
theorem test_reserved_op_X1_X2 :
    decode 0x00000000000000000000000000000000000000000a [] = .reserved .reservedOp ∧
    decode 0x00000000000000000000000000000000000000000f [] = .reserved .reservedOp := by decide
/-- X3, X21, X22: RSV = 1. -/
theorem test_reserved_bit_X3_X21_X22 :
    decode 0x000000000000000000000000000000000000000080 [] = .reserved .reservedBit ∧
    decode 0x000000000000000000000000000000000000000089 [] = .reserved .reservedBit ∧
    decode 0xffffffffffffffffffffffffffffffffffffffffff [] = .reserved .reservedBit := by decide
/-- X4, X5, X6: WTAG = 5, 7, 6. -/
theorem test_reserved_width_X4_X5_X6 :
    decode 0x000000000000000000000000000000050000000351 [] = .reserved .reservedWidth ∧
    decode 0x000000000000000000000000000000050000000371 [] = .reserved .reservedWidth ∧
    decode 0x000000000000000000000000000000030000000462 [] = .reserved .reservedWidth := by decide
/-- X7 to X9: unused fields of WRITE_BIT. -/
theorem test_reserved_fields_X7_X8_X9 :
    decode 0x000000000000000000000000000000000000000100 [] = .reserved .unusedField ∧
    decode 0x000000000000000000000000000000020000000000 [] = .reserved .unusedField ∧
    decode 0x000000000000000000000000000000000000000010 [] = .reserved .unusedField := by decide
/-- X10 to X12: VALUE has a bit set from W up. -/
theorem test_reserved_fields_X10_X11_X12 :
    decode 0x000000000000000000000000000001a50000000801 [] = .reserved .unusedField ∧
    decode 0xfffffffffffffffffffffffffffffffb0000000402 [] = .reserved .unusedField ∧
    decode 0x000000000000000100000000000000000000004031 [] = .reserved .unusedField := by decide
/-- X13 to X16: unused fields of WRITE_BYTES and the unary commands. -/
theorem test_reserved_fields_X13_to_X16 :
    decode 0x000000000000000000000000000000010000000203 [1, 2] = .reserved .unusedField ∧
    decode 0x000000000000000000000000000000000000000213 [1, 2] = .reserved .unusedField ∧
    decode 0x000000000000000000000000000000010000000304 [] = .reserved .unusedField ∧
    decode 0x000000000000000000000000000000000000000325 [] = .reserved .unusedField := by decide
/-- X17 to X20: unused fields of the commands without operands. -/
theorem test_reserved_fields_X17_to_X20 :
    decode 0x000000000000000000000000000000000000000106 [] = .reserved .unusedField ∧
    decode 0x000000000000000000000000000000000000000017 [] = .reserved .unusedField ∧
    decode 0x000000000000000000000000000000010000000008 [] = .reserved .unusedField ∧
    decode 0x000000000000000000000000000000008000000009 [] = .reserved .unusedField := by decide

/-- The encoder writes the words of G14 and of Y1. -/
theorem test_encode_G14_Y1 :
    encode (.writeI128 128 (-1)) = (0xffffffffffffffffffffffffffffffff0000008042, []) ∧
    encode (.writeBytes [0xAB]) = (0x000000000000000000000000000000000000000103, [0xAB]) := by decide

/-- The entry points of the host: a table word is decoded, and is what the next step runs. -/
theorem test_table_word :
    decodeTableWord 168 0x000000000000000000000000000000000000000203 = some (.writeBytes [0, 0]) ∧
    decodeTableWord 168 0x000000000000000000000000000000050000000351 = none ∧
    (after (step (State.reset.withFetchWord 168 0x000000000000000000000000000000050000000301))).map
      (fun t => (t.plen, t.pval, t.inputs)) = some (3, 5, []) := by decide

/-! The accumulator (96_test_vectors_derived.md, 2.1). -/

theorem test_push_Q3_Q7 :
    push .msbFirst ⟨.w8, 5, 0b10101⟩ 3 0b110 = some ⟨.w8, 8, 0b10101110⟩ ∧
    push .lsbFirst ⟨.w8, 5, 0b01101⟩ 3 0b110 = some ⟨.w8, 8, 0b11001101⟩ := by decide
theorem test_pop_Q17_Q18 :
    pop .msbFirst ⟨.w16, 12, 0b101010111100⟩ 3 = some (0b101, ⟨.w16, 9, 0b010111100⟩) ∧
    pop .lsbFirst ⟨.w16, 12, 0b101010111100⟩ 3 = some (0b100, ⟨.w16, 9, 0b101010111⟩) := by decide
theorem test_pop_Q23_Q24 :
    pop .msbFirst ⟨.w128, 128, 0x80000000000000000000000000000001⟩ 8 = some (0b10000000, ⟨.w128, 120, 1⟩) ∧
    pop .lsbFirst ⟨.w128, 128, 0x80000000000000000000000000000001⟩ 8 =
      some (1, ⟨.w128, 120, 0x800000000000000000000000000000⟩) := by decide
theorem test_full_and_empty :
    Acc.isFull ⟨.w8, 8, 0b10101110⟩ = true ∧ Acc.isFull ⟨.w8, 7, 0⟩ = false ∧
    Acc.isEmpty ⟨.w8, 0, 0⟩ = true ∧ Acc.isEmpty ⟨.w8, 1, 0⟩ = false := by decide

/-! One step per command, from the word of the vector, one test for each ORDER. -/

theorem test_B5_msb : shows (blockAt .msbFirst 7 0b1011010 [.ok])
    0x000000000000000000000000000000010000000000 [] = some ([.accepted [0xB5]], 0, 0, okWith 0) := by decide
theorem test_B5_lsb : shows (blockAt .lsbFirst 7 0b1011010 [.ok])
    0x000000000000000000000000000000010000000000 [] = some ([.accepted [0xDA]], 0, 0, okWith 0) := by decide
theorem test_W8_msb : shows (blockAt .msbFirst 4 0b1010 [.ok])
    0x000000000000000000000000000000a50000000801 [] =
      some ([.accepted [0xAA]], 4, 0b0101, okWith 0) := by decide
theorem test_W4_lsb : shows (blockAt .lsbFirst 3 0b101 [])
    0x0000000000000000000000000000000b0000000401 [] = some ([], 7, 0b1011101, okWith 0) := by decide
theorem test_W12_msb : shows (blockAt .msbFirst 6 0b110011 [.ok, .ok])
    0x00000000000000000000000000000abc0000000c11 [] =
      some ([.accepted [0xCE], .accepted [0xAF]], 2, 0, okWith 0) := by decide
theorem test_W12_lsb : shows (blockAt .lsbFirst 6 0b110011 [.ok, .ok])
    0x00000000000000000000000000000abc0000000c11 [] =
      some ([.accepted [0x33], .accepted [0xAF]], 2, 0b10, okWith 0) := by decide
theorem test_W13_msb : shows (blockAt .msbFirst 5 0b01110 [.ok])
    0x000000000000000000000000000003ff0000000a21 [] =
      some ([.accepted [0x77]], 7, 0b1111111, okWith 0) := by decide
theorem test_W15_lsb : shows (blockAt .lsbFirst 1 1 [.ok, .ok, .ok, .ok])
    0x000000000000000000000000deadbeef0000002021 [] =
      some (([[0xDF], [0x7D], [0x5B], [0xBD]] : List (List Byte)).map Txn.accepted, 1, 1, okWith 0) := by decide
theorem test_W16_msb : shows (blockAt .msbFirst 3 0b010 (List.replicate 8 .ok))
    0x00000000000000000123456789abcdef0000004031 [] =
      some ((singles [0x40, 0x24, 0x68, 0xAC, 0xF1, 0x35, 0x79, 0xBD]).map Txn.accepted, 3, 0b111,
        okWith 0) := by decide
theorem test_W16_lsb : shows (blockAt .lsbFirst 3 0b010 (List.replicate 8 .ok))
    0x00000000000000000123456789abcdef0000004031 [] =
      some ((singles [0x7A, 0x6F, 0x5E, 0x4D, 0x3C, 0x2B, 0x1A, 0x09]).map Txn.accepted, 3, 0,
        okWith 0) := by decide
theorem test_W20_msb : shows (blockAt .msbFirst 0 0 (List.replicate 12 .ok))
    0x0000000fffffffffffffffffffffffff0000006441 [] =
      some ((singles (List.replicate 12 0xFF)).map Txn.accepted, 4, 0b1111, okWith 0) := by decide
theorem test_W21_lsb : shows (blockAt .lsbFirst 7 0 [.ok])
    0x000000000000000000000000000000010000000141 [] = some ([.accepted [0x80]], 0, 0, okWith 0) := by decide
theorem test_G2_msb : shows (blockAt .msbFirst 4 0b1011 [.ok])
    0x000000000000000000000000000000070000000402 [] = some ([.accepted [0xB7]], 0, 0, okWith 0) := by decide
theorem test_G19_lsb : shows (blockAt .lsbFirst 0 0 [])
    0x000000000000000000000000000000f70000000402 [] = some ([], 0, 0, [⟨.invalidInput, 0, 0⟩]) := by decide
theorem test_G10_msb : shows (blockAt .msbFirst 0 0 [.ok])
    0x0000000000000000000000000000f8000000000c12 [] = some ([.accepted [0x80]], 4, 0, okWith 0) := by decide
theorem test_G10_lsb : shows (blockAt .lsbFirst 0 0 [.ok])
    0x0000000000000000000000000000f8000000000c12 [] = some ([.accepted [0x00]], 4, 0b1000, okWith 0) := by decide
theorem test_G12_msb : shows (blockAt .msbFirst 7 0 [.ok, .ok, .ok])
    0x000000000000000000000000ffff00000000001122 [] =
      some ((singles [0x01, 0x00, 0x00]).map Txn.accepted, 0, 0, okWith 0) := by decide
theorem test_G12_lsb : shows (blockAt .lsbFirst 7 0 [.ok, .ok, .ok])
    0x000000000000000000000000ffff00000000001122 [] =
      some ((singles [0x00, 0x00, 0x80]).map Txn.accepted, 0, 0, okWith 0) := by decide
theorem test_G13_msb : shows (blockAt .msbFirst 0 0 (List.replicate 8 .ok))
    0x000000000000000080000000000000000000004032 [] =
      some ((singles [0x80, 0, 0, 0, 0, 0, 0, 0]).map Txn.accepted, 0, 0, okWith 0) := by decide
theorem test_G23_lsb : shows (blockAt .lsbFirst 0 0 [])
    0x000000000000000040000000000000000000003f32 [] = some ([], 0, 0, [⟨.invalidInput, 0, 0⟩]) := by decide
theorem test_G14_msb : shows (blockAt .msbFirst 1 0 (List.replicate 16 .ok))
    0xffffffffffffffffffffffffffffffff0000008042 [] =
      some ((singles (0x7F :: List.replicate 15 0xFF)).map Txn.accepted, 1, 1, okWith 0) := by decide
theorem test_G14_lsb : shows (blockAt .lsbFirst 1 0 (List.replicate 16 .ok))
    0xffffffffffffffffffffffffffffffff0000008042 [] =
      some ((singles (0xFE :: List.replicate 15 0xFF)).map Txn.accepted, 1, 1, okWith 0) := by decide
theorem test_Y3_msb : shows (blockAt .msbFirst 0 0 [.ok])
    0x000000000000000000000000000000000000000203 [0xBC, 0xDE] =
      some ([.accepted [0xBC, 0xDE]], 0, 0, okWith 0) := by decide
theorem test_Y4_lsb : shows (blockAt .lsbFirst 4 0b1010 [.ok, .ok])
    0x000000000000000000000000000000000000000203 [0xBC, 0xDE] =
      some ([.accepted [0xCA], .accepted [0xEB]], 4, 0b1101, okWith 0) := by decide
theorem test_U9_msb : shows (blockAt .msbFirst 5 0b01110 [.ok, .ok])
    0x000000000000000000000000000000000000000a04 [] =
      some ([.accepted [0x77], .accepted [0xFE]], 0, 0, okWith 0) := by decide
theorem test_U15_lsb : shows (blockAt .lsbFirst 0 0 (List.replicate 8 .ok))
    0x000000000000000000000000000000000000004104 [] =
      some ((singles (List.replicate 8 0xFF)).map Txn.accepted, 2, 0b01, okWith 0) := by decide
theorem test_U21_msb : shows (blockAt .msbFirst 6 0b101010 (List.replicate 17 .ok))
    0x000000000000000000000000000000000000008205 [] =
      some ((singles (0xA8 :: List.replicate 16 0)).map Txn.accepted, 1, 1, okWith 0) := by decide
theorem test_U18_lsb : shows (blockAt .lsbFirst 3 0b111 (List.replicate 4 .ok))
    0x000000000000000000000000000000000000001f05 [] =
      some ((singles [0x07, 0, 0, 0]).map Txn.accepted, 3, 0b100, okWith 0) := by decide
theorem test_A1_aligned : shows (blockAt .msbFirst 0 0 [])
    0x000000000000000000000000000000000000000006 [] = some ([], 0, 0, okWith 1) := by decide
theorem test_A2_not_aligned : shows (blockAt .lsbFirst 1 0 [])
    0x000000000000000000000000000000000000000006 [] = some ([], 1, 0, okWith 0) := by decide
theorem test_A5_msb : shows (blockAt .msbFirst 3 0b101 [.ok])
    0x000000000000000000000000000000000000000007 [] = some ([.accepted [0xA0]], 0, 0, okWith 0) := by decide
theorem test_A5_lsb : shows (blockAt .lsbFirst 3 0b101 [.ok])
    0x000000000000000000000000000000000000000007 [] = some ([.accepted [0x05]], 0, 0, okWith 0) := by decide
theorem test_A11 : shows (blockAt .msbFirst 7 0b1111111 [])
    0x000000000000000000000000000000000000000008 [] = some ([], 7, 0b1111111, okWith 0x7F7) := by decide
theorem test_A14 : shows (blockAt .lsbFirst 3 0b101 [])
    0x000000000000000000000000000000000000000009 [] = some ([], 0, 0, okWith 0) := by decide

/-! Reserved words, sink failures, the refusal, the reset event (2.8, 2.9). -/

/-- X13: rejected, and its two payload bytes are consumed. -/
theorem test_X13_consumes_payload :
    (after (step ((blockAt .msbFirst 3 5 []).offer 0x000000000000000000000000000000010000000203 [1, 2]))).map
      (fun t => (t.inputs, t.plen, t.pval, t.rsps)) = some ([], 3, 5, [⟨.invalidInput, 0, 0⟩]) := by decide
theorem test_F2 : showsFailure (blockAt .msbFirst 0 0 [.ok, .fail 0x5E 0])
    0x000000000000000000000000000012340000001011 [] =
      some ([.accepted [0x12], .failed [0x34] 0 0], .msbFirst, true, [⟨.sinkFailure, 0, 0⟩]) := by decide
theorem test_F5 : showsFailure (blockAt .msbFirst 0 0 [.ok, .ok, .ok, .fail 1 1, .ok])
    0x000000000000000000000000000000000000004604 [] =
      some ([.accepted [0xFF], .accepted [0xFF], .accepted [0xFF], .failed [0xFF] 0 1], .msbFirst, true,
        [⟨.sinkFailure, 0, 0⟩]) := by decide
/-- R202: the sink's information, whatever it is, stands in ERRINFO as the sink gave it. -/
theorem test_information_is_carried (e : ErrInfo) :
    (after (exec (.writeBit true) (blockAt .msbFirst 7 0x7F [.fail e 0]))).map
      (fun t => (t.rsps, t.sink.txns.length)) = some ([⟨.sinkFailure, 0, e⟩], 1) := by with_unfolding_all rfl
/-- F4, the third of its four outcomes. -/
theorem test_F4_log :
    (after (step ((blockAt .lsbFirst 0 0 [.fail 1 2]).offer
      0x000000000000000000000000000000000000000303 [1, 2, 3]))).map State.log = some [1, 2] := by decide
/-! F8, F11, F12: the refusal ranks above the reserved-encoding check and above validation. -/

theorem test_F8 : shows (failedBlock .msbFirst) 0x000000000000000000000000000000000000000008 [] =
    some ([], 3, 5, [⟨.sinkFailure, 0, 0⟩]) := by decide
theorem test_F11 : shows (failedBlock .msbFirst) 0x00000000000000000000000000000000000000000a [] =
    some ([], 3, 5, [⟨.sinkFailure, 0, 0⟩]) := by decide
theorem test_F12 : shows (failedBlock .msbFirst) 0x000000000000000000000000000000000000000901 [] =
    some ([], 3, 5, [⟨.sinkFailure, 0, 0⟩]) := by decide
/-- F14. -/
theorem test_F14 :
    (after (step { failedBlock .msbFirst with inputs := [.reset .lsbFirst] })).map
      (fun t => (t.order, t.plen, t.pval, t.failed, t.rsps)) =
        some (.lsbFirst, 0, 0, false, []) := by decide
/-- A command that presents nothing does not consult a sink that would fail (2.9). -/
theorem test_no_transaction_no_failure : shows (blockAt .msbFirst 0 0 [.fail 1 0])
    0x000000000000000000000000000000050000000301 [] = some ([], 3, 5, okWith 0) := by decide

/-- R226: a reset in the second transaction of WRITE.U16 16, 0x1234. -/
theorem test_reset_during_command :
    (after (step { blockAt .msbFirst 0 0 [.ok, .ok] with
      inputs := [.strike .lsbFirst 1 0, .word 0x000000000000000000000000000012340000001011] })).map
      (fun t => (t.order, t.log, t.plen, t.rsps)) = some (.lsbFirst, [0x12], 0, []) := by decide
/-- R70: the fields of the response word, at the default ERRW of 8 and at another. -/
theorem test_response_word :
    responseWord .sinkFailure 0 (0x5E : BitVec Config.defaultErrWidth) = 0x178002 ∧
    responseWord .ok 0x053 (0 : BitVec Config.defaultErrWidth) = 0x14C ∧
    responseWord .sinkFailure 0 (0xABC : BitVec 12) = 0x2AF0002 := by decide
/-- R10: the codes of the order strap. -/
theorem test_order_strap : orderOfStrap 0 = .msbFirst ∧ orderOfStrap 1 = .lsbFirst := by decide

/-- K5, on a counting writer of 64 bits. -/
theorem test_K5 :
    countAll 64 [.writeU8 3 5, .writeU8 3 8, .writeUnary1 70] .fresh =
      some ([.ok, .invalidInput, .ok], ⟨74⟩) := by decide

/-! Witnesses: for each obligation with hypotheses, a state and operands that meet them all. -/

/-- An outcome whose next state looks like this under `f` is a next state that does. -/
theorem next_with {β : Type} {x : Host.Outcome State Fault Refusal} (f : State → β) {b : β}
    (h : (after x).map f = some b) : ∃ t, x = .next t ∧ f t = b := by
  cases x <;> simp_all [after]

theorem next_some {x : Host.Outcome State Fault Refusal} (h : (after x).isSome = true) :
    ∃ t, x = .next t := by
  cases x <;> simp_all [after]

theorem noReset_of_command {s : State} {w : CmdWord} {payload : List Byte} {rest : List Input}
    (h : fetch s.inputs = .command w payload rest) : s.NoReset := by
  intro o r h'
  rw [h] at h'
  cases h'

/-- A block with PLEN = 7 and seven one-bits pending, with every sink answer it may ask for. -/
abbrev full7 (o : Order) : State := blockAt o 7 127 (List.replicate 17 .ok)

/-- A block that is empty, with every sink answer it may ask for. -/
abbrev empty (o : Order) : State := blockAt o 0 0 (List.replicate 17 .ok)

theorem test_witness_DecodeReadsEncodedCommand :
    (Instr.writeBytes (List.replicate (2 ^ 32 - 1) 0)).wf = true ∧
    (Instr.writeI128 0xFFFFFFFF (-1)).wf = true :=
  ⟨test_wf_admits_payload_of_2_to_the_32_less_one, by decide⟩

theorem test_witness_LegalRecordHasOneEncoding :
    decode 0xffffffffffffffffffffffffffffffffffffffff42 [] = .legal (.writeI128 0xFFFFFFFF (-1)) ∧
    decode 0x000000000000000000000000000000000000000103 [0xAB] = .legal (.writeBytes [0xAB]) := by decide

theorem test_witness_ReservedEncodingsAreTheListed :
    [1, 2].length = payloadCount 0x000000000000000000000000000000010000000203 ∧
    ([] : List Byte).length = payloadCount 0x000000000000000000000000000000000000000009 := by decide

theorem test_witness_StepRunsDecodedCommand :
    ∃ (s : State) (w : CmdWord) (payload : List Byte) (rest : List Input) (i : Instr),
      s.inputs = beatsOf w payload ++ rest ∧ decode w payload = .legal i :=
  ⟨(full7 .msbFirst).offer 0x000000000000000000000000000000000000000103 [0xAB],
    0x000000000000000000000000000000000000000103, [0xAB], [], .writeBytes [0xAB], by decide, by decide⟩

theorem test_witness_StepRejectsReservedEncoding :
    ∃ (s : State) (w : CmdWord) (payload : List Byte) (rest : List Input),
      s.failed = false ∧ s.inputs = beatsOf w payload ++ rest ∧ payload.length = payloadCount w ∧
        ReservedFields (fieldsOf w) :=
  ⟨(full7 .msbFirst).offer 0x000000000000000000000000000000010000000203 [1, 2],
    0x000000000000000000000000000000010000000203, [1, 2], [], by decide, by decide, by decide,
    by unfold ReservedFields; decide⟩

/-- Each clause of the list of reserved encodings is met at the edge of its range, by a word whose other fields
are those of a legal command. -/
theorem test_witness_ReservedFields_each_clause :
    ReservedFields ⟨10, 0, 0, 0, 0⟩ ∧ ReservedFields ⟨9, 0, 1, 0, 0⟩ ∧ ReservedFields ⟨1, 5, 0, 0, 0⟩ ∧
    ReservedFields ⟨2, 3, 0, 64, 0x10000000000000000⟩ ∧ ReservedFields ⟨3, 1, 0, 0, 0⟩ ∧
    ReservedFields ⟨6, 0, 0, 1, 0⟩ ∧ ReservedFields ⟨0, 0, 0, 0, 2⟩ ∧ ReservedFields ⟨3, 0, 0, 0, 1⟩ ∧
    ¬ ReservedFields ⟨9, 0, 0, 0, 0⟩ ∧ ¬ ReservedFields ⟨2, 3, 0, 64, 0xFFFFFFFFFFFFFFFF⟩ ∧
    ¬ ReservedFields ⟨1, 4, 0, 0xFFFFFFFF, 0xFFFFFFFFFFFFFFFFFFFFFFFFFFFFFFFF⟩ := by
  unfold ReservedFields
  refine ⟨?_, ?_, ?_, ?_, ?_, ?_, ?_, ?_, ?_, ?_, ?_⟩ <;> decide

theorem test_witness_FailedBlockRefusesEveryWord :
    ∃ (s : State) (w : CmdWord) (payload : List Byte) (rest : List Input),
      s.failed = true ∧ s.inputs = beatsOf w payload ++ rest ∧ payload.length = payloadCount w :=
  ⟨(failedBlock .lsbFirst).offer 0x000000000000000000000000000000000000000203 [1, 2],
    0x000000000000000000000000000000000000000203, [1, 2], [], by decide, by decide, by decide⟩

theorem test_witness_FailedBlockRefusesEveryWord_second_clause :
    ∃ s t : State, step s = .next t ∧ s.NoReset ∧ s.failed = true :=
  (next_some (x := step ((failedBlock .msbFirst).offer 9 [])) (by decide)).elim
    (fun t h => ⟨_, t, h, noReset_of_command (w := 9) (payload := []) (rest := []) (by decide), by decide⟩)

theorem test_witness_OnlyResetWritesOrder : ∃ s t : State, step s = .next t ∧ s.NoReset :=
  (next_some (x := step ((full7 .lsbFirst).offer 9 [])) (by decide)).elim
    (fun t h => ⟨_, t, h, noReset_of_command (w := 9) (payload := []) (rest := []) (by decide)⟩)

theorem test_witness_ResetEventSetsRegisters : ∀ o : Order,
    ∃ (s : State) (rest : List Input), s.failed = true ∧ s.inputs = .reset o :: rest :=
  fun o => ⟨{ failedBlock .msbFirst with inputs := [.reset o] }, [], rfl, rfl⟩

/-- Both clauses: WRITE.U16 16 makes two transactions; the reset comes in the second, and after both. -/
theorem test_witness_ResetDuringCommandAbandonsIt : ∀ answered ∈ [0, 1, 2],
    ∃ (s u : State) (w : CmdWord) (payload : List Byte) (rest : List Input) (new : List Txn),
      s.inputs = .strike .lsbFirst answered 1 :: (beatsOf w payload ++ rest) ∧
      payload.length = payloadCount w ∧ runWord w payload { s with inputs := rest } = .next u ∧
      u.sink.txns = s.sink.txns ++ new ∧ new = [.accepted [0x12], .accepted [0x34]] := by
  intro answered _
  obtain ⟨u, hu, ht⟩ := next_with
    (x := runWord 0x000000000000000000000000000012340000001011 [] (empty .msbFirst))
    (fun t => t.sink.txns) (b := [.accepted [0x12], .accepted [0x34]]) (by decide)
  exact ⟨{ empty .msbFirst with
      inputs := [.strike .lsbFirst answered 1, .word 0x000000000000000000000000000012340000001011] },
    u, _, [], [], _, rfl, by decide, hu, ht, rfl⟩

theorem test_witness_CommandAwaitsItsPayload :
    ∃ (s : State) (w : CmdWord) (arrived : List Byte),
      s.inputs = beatsOf w arrived ∧ arrived.length < payloadCount w :=
  ⟨(full7 .msbFirst).offer 0x000000000000000000000000000000000000000203 [1],
    0x000000000000000000000000000000000000000203, [1], by decide, by decide⟩

theorem test_witness_BrokenDeliveryStops :
    (∃ (s : State) (b : Byte) (rest : List Input), s.inputs = .byte b :: rest) ∧
    (∃ (s : State) (w w' : CmdWord) (arrived : List Byte) (rest : List Input),
      s.inputs = beatsOf w arrived ++ .word w' :: rest ∧ arrived.length < payloadCount w) ∧
    (∃ s : State, s.inputs = []) :=
  ⟨⟨{ State.reset with inputs := [.byte 0] }, 0, [], rfl⟩,
   ⟨{ State.reset with inputs := [.word 0x000000000000000000000000000000000000000203, .byte 1, .word 9] },
     0x000000000000000000000000000000000000000203, 9, [1], [], by decide, by decide⟩,
   ⟨State.reset, rfl⟩⟩

theorem test_witness_StepKeepsAccumulatorInvariant :
    ∃ s t : State, s.Inv ∧ s.plen = 7 ∧ s.pval = 127 ∧ step s = .next t :=
  (next_some (x := step ((full7 .msbFirst).offer 0 [])) (by decide)).elim
    (fun t h => ⟨_, t, by decide, by decide, by decide, h⟩)

theorem test_witness_EveryCommandIsAnswered :
    ∃ (s : State) (w : CmdWord) (payload : List Byte) (rest : List Input),
      s.Inv ∧ s.inputs = beatsOf w payload ++ rest ∧ payload.length = payloadCount w :=
  ⟨(full7 .msbFirst).offer 0x000000000000000000000000000000010000000203 [1, 2],
    0x000000000000000000000000000000010000000203, [1, 2], [], by decide, by decide, by decide⟩

theorem test_witness_SinkLogOnlyGrows :
    ∃ s t : State, step s = .next t ∧ t.log = s.log ++ [0xFE] :=
  (next_with (x := step ((full7 .msbFirst).offer 0 [])) State.log (b := [0xFE]) (by decide)).elim
    (fun t h => ⟨_, t, h.1, h.2⟩)

/-- The clauses: a status other than OK, a transaction that failed, none that failed. -/
theorem test_witness_ResponseOfEveryCommandWord :
    (∃ t, runWord 0x000000000000000000000000000000000000000901 [] (empty .msbFirst) = .next t) ∧
    (∃ t, runWord 0x000000000000000000000000000000010000000000 [] (blockAt .msbFirst 7 0 [.fail 1 0]) =
      .next t ∧ t.sink.txns = [.failed [1] 1 0]) ∧
    (∃ t, runWord 0x000000000000000000000000000000000000000008 [] (full7 .msbFirst) = .next t) :=
  ⟨next_some (by decide), next_with (fun t => t.sink.txns) rfl, next_some (by decide)⟩

/-- The clauses: BYTE_ALIGNED at both answers, UNWRITTEN, another operation. -/
theorem test_witness_RdataOfEveryOperation :
    (∃ t, exec .byteAligned (empty .msbFirst) = .next t ∧ t.rsps = [] ++ okWith 1) ∧
    (∃ t, exec .byteAligned (full7 .msbFirst) = .next t ∧ t.rsps = [] ++ okWith 0) ∧
    (∃ t, exec .unwritten (full7 .msbFirst) = .next t ∧ t.rsps = [] ++ okWith 0x7F7) ∧
    (∃ t, exec .dispose (full7 .msbFirst) = .next t ∧ t.rsps = [] ++ okWith 0) :=
  ⟨next_with State.rsps (by decide), next_with State.rsps (by decide), next_with State.rsps (by decide),
    next_with State.rsps (by decide)⟩

theorem test_witness_PushAppendsToQueue :
    ∃ (a : Acc) (n v : Nat), a.len + n = a.carrier.width ∧ v < 2 ^ n ∧ a.val < 2 ^ a.len :=
  ⟨⟨.w8, 5, 0b10101⟩, 3, 0b111, by decide, by decide, by decide⟩

theorem test_witness_PopTakesFromFront :
    (∃ (a : Acc) (n : Nat), n = a.len ∧ 0 < n ∧ a.val < 2 ^ a.len) ∧
    (∃ (a : Acc) (n : Nat), n = 0 ∧ 0 < a.len ∧ a.val < 2 ^ a.len) :=
  ⟨⟨⟨.w8, 8, 255⟩, 8, by decide, by decide, by decide⟩, ⟨⟨.w8, 5, 31⟩, 0, by decide, by decide, by decide⟩⟩

theorem test_witness_AccumulatorIsFirstInFirstOut :
    ∃ (c : Carrier) (n1 v1 n2 v2 : Nat), n1 + n2 = c.width ∧ v1 < 2 ^ n1 ∧ v2 < 2 ^ n2 :=
  ⟨.w128, 127, 1, 1, 1, by decide, by decide, by decide⟩

theorem test_witness_FullByteLeavesAsItStands : ∃ v : Nat, v < 2 ^ 8 ∧ v = 255 := ⟨255, by decide, rfl⟩

theorem test_witness_WriteBitPushesOneBit :
    (∃ s : State, s.Ready ∧ s.plen.toNat = 6 ∧ s.pval = 63) ∧
    (∃ s : State, s.Ready ∧ s.plen.toNat = 7 ∧ s.SinkOk 1) :=
  ⟨⟨blockAt .msbFirst 6 63 [], by decide, by decide, by decide⟩,
   ⟨full7 .lsbFirst, by decide, by decide, by decide⟩⟩

/-- Each width at its largest count and value, and a state that is ready with the sink answers it takes. -/
theorem test_witness_WriteAddsItsBits :
    ((255 : BitVec 8).toNat < 2 ^ 8 ∧ (0xFFFF : BitVec 16).toNat < 2 ^ 16 ∧
      (0xFFFFFFFF : BitVec 32).toNat < 2 ^ 32 ∧ (0xFFFFFFFFFFFFFFFF : BitVec 64).toNat < 2 ^ 64 ∧
      (0xFFFFFFFFFFFFFFFFFFFFFFFFFFFFFFFF : BitVec 128).toNat < 2 ^ 128) ∧
    ((full7 .msbFirst).Ready ∧ (full7 .msbFirst).SinkOk ((7 + 128) / 8)) := by decide

/-- Each width, just above W and just below W with the least value that does not fit. -/
theorem test_witness_WriteRejectsWhatDoesNotFit :
    (8 < (9 : Count).toNat ∧ 16 < (17 : Count).toNat ∧ 32 < (33 : Count).toNat ∧ 64 < (65 : Count).toNat ∧
      128 < (129 : Count).toNat) ∧
    (2 ^ 7 ≤ (0x80 : BitVec 8).toNat ∧ 2 ^ 15 ≤ (0x8000 : BitVec 16).toNat ∧
      2 ^ 31 ≤ (0x80000000 : BitVec 32).toNat ∧ 2 ^ 63 ≤ (0x8000000000000000 : BitVec 64).toNat ∧
      2 ^ 127 ≤ (0x80000000000000000000000000000000 : BitVec 128).toNat) ∧
    (full7 .msbFirst).failed = false := by decide

/-- A legal command with a cause, one without, and a reserved encoding. -/
theorem test_witness_InvalidInputHasTheListedCauses :
    ((full7 .msbFirst).failed = false ∧
      ([] : List Byte).length = payloadCount 0x000000000000000000000000000000080000000402) ∧
    (∃ t, runWord 0x000000000000000000000000000000080000000402 [] (full7 .msbFirst) = .next t ∧
      t.rsps = [] ++ [⟨.invalidInput, 0, 0⟩]) ∧
    (∃ t, runWord 0x000000000000000000000000000000f80000000402 [] (full7 .msbFirst) = .next t ∧
      t.rsps = [] ++ okWith 0) ∧
    (∃ t, runWord 0x00000000000000000000000000000000000000000a [] (full7 .msbFirst) = .next t ∧
      t.rsps = [] ++ [⟨.invalidInput, 0, 0⟩]) :=
  ⟨by decide, next_with State.rsps (by decide), next_with State.rsps (by decide),
    next_with State.rsps (by decide)⟩

/-- Each cause of the table at the edge of its range, and the value beside it that has none. -/
theorem test_witness_InvalidCause_each_clause :
    InvalidCause (.writeU8 9 0) ∧ ¬ InvalidCause (.writeU8 8 255) ∧ InvalidCause (.writeU16 15 0x8000) ∧
    ¬ InvalidCause (.writeU16 15 0x7FFF) ∧ InvalidCause (.writeI8 0 0) ∧ InvalidCause (.writeI32 33 0) ∧
    InvalidCause (.writeI8 1 1) ∧ ¬ InvalidCause (.writeI8 1 (-1)) ∧ InvalidCause (.writeI8 4 (-9)) := by
  unfold InvalidCause
  refine ⟨?_, ?_, ?_, ?_, ?_, ?_, ?_, ?_, ?_⟩ <;> decide

theorem test_witness_InvalidInputLeavesNoTrace :
    (∃ t, runWord 0x000000000000000000000000000000080000000402 [] (full7 .msbFirst) = .next t ∧
      t.rsps = [] ++ [⟨.invalidInput, 0, 0⟩]) ∧
    Counter.issue 64 ⟨74⟩ (.writeU8 3 8) = .error ⟨74⟩ .invalidInput :=
  ⟨next_with State.rsps (by decide), by decide⟩

/-- Both clauses, with the sink failing at once. -/
theorem test_witness_SinkFailureNeedsATransaction :
    ∃ (i : Instr) (s t : State), s.Ready ∧ exec i s = .next t ∧ t.failed = true ∧ SinkFailureCause s i ∧
      ¬ InvalidCause i ∧ ∃ e k, s.sink.answerAt 0 = .fail e k :=
  (next_with (x := exec (.writeU8 1 1) (blockAt .msbFirst 7 127 [.fail 1 0])) State.failed (b := true)
    (by decide)).elim (fun t h => ⟨_, _, t, by decide, h.1, h.2, by unfold SinkFailureCause; decide,
      by unfold InvalidCause; decide, 1, 0, rfl⟩)

theorem test_witness_CarrierEntersValidationOnly :
    ∃ (c1 c2 : Carrier) (n : Count) (v : BitVec 128),
      c1 ≠ c2 ∧ n.toNat ≤ c1.width ∧ n.toNat ≤ c2.width ∧ v.toNat < 2 ^ n.toNat :=
  ⟨.w8, .w128, 8, 255, by decide, by decide, by decide, by decide⟩

theorem test_witness_AlignedWriteEmitsBytesOfValue : ∀ o : Order,
    ∃ (c : Carrier) (n : Count) (v : BitVec 128) (k : Nat) (s : State),
      n.toNat = 8 * k ∧ n.toNat ≤ c.width ∧ v.toNat < 2 ^ n.toNat ∧ s.Ready ∧ s.plen = 0 ∧ s.SinkOk k ∧
        s.order = o := by
  intro o
  cases o
  · exact ⟨.w128, 128, 0x112233445566778899AABBCCDDEEFF, 16, empty .msbFirst, by decide, by decide, by decide,
      by decide, by decide, by decide, rfl⟩
  · exact ⟨.w16, 16, 0x1234, 2, empty .lsbFirst, by decide, by decide, by decide, by decide, by decide,
      by decide, rfl⟩

theorem test_witness_PackIsItsClosedForm :
    ∃ (c : Carrier) (bits value : Nat) (p : Acc),
      p.carrier = .w8 ∧ p.len = 7 ∧ p.val < 2 ^ p.len ∧ bits = c.width ∧ value < 2 ^ bits :=
  ⟨.w128, 128, 2 ^ 128 - 1, ⟨.w8, 7, 127⟩, by decide, by decide, by decide, by decide, by decide⟩

/-- Each width at both ends of the range of its largest count. -/
theorem test_witness_SignedWriteAddsTwosComplement :
    (-(2 ^ (8 - 1)) ≤ (0x80 : BitVec 8).toInt ∧ (0x80 : BitVec 8).toInt < 2 ^ (8 - 1)) ∧
    (-(2 ^ (16 - 1)) ≤ (0x8000 : BitVec 16).toInt ∧ (0x8000 : BitVec 16).toInt < 2 ^ (16 - 1)) ∧
    (-(2 ^ (32 - 1)) ≤ (0x80000000 : BitVec 32).toInt ∧ (0x80000000 : BitVec 32).toInt < 2 ^ (32 - 1)) ∧
    (-(2 ^ (64 - 1)) ≤ (0x7FFFFFFFFFFFFFFF : BitVec 64).toInt ∧
      (0x7FFFFFFFFFFFFFFF : BitVec 64).toInt < 2 ^ (64 - 1)) ∧
    (-(2 ^ (128 - 1)) ≤ (0x80000000000000000000000000000000 : BitVec 128).toInt ∧
      (0x80000000000000000000000000000000 : BitVec 128).toInt < 2 ^ (128 - 1)) := by decide

/-- Each width: just above W, zero bits, and below W the first value out of the range on either side. -/
theorem test_witness_SignedWriteRejectsWhatDoesNotFit :
    (8 < (9 : Count).toNat ∧ 16 < (17 : Count).toNat ∧ 32 < (33 : Count).toNat ∧ 64 < (65 : Count).toNat ∧
      128 < (129 : Count).toNat) ∧
    ((-9 : BitVec 8).toInt < -(2 ^ (4 - 1)) ∧ 2 ^ (4 - 1) ≤ (8 : BitVec 8).toInt) ∧
    ((-9 : BitVec 16).toInt < -(2 ^ (4 - 1)) ∧ 2 ^ (15 - 1) ≤ (0x4000 : BitVec 16).toInt) ∧
    ((-9 : BitVec 32).toInt < -(2 ^ (4 - 1)) ∧ 2 ^ (31 - 1) ≤ (0x40000000 : BitVec 32).toInt) ∧
    ((-9 : BitVec 64).toInt < -(2 ^ (4 - 1)) ∧ 2 ^ (63 - 1) ≤ (0x4000000000000000 : BitVec 64).toInt) ∧
    ((-9 : BitVec 128).toInt < -(2 ^ (4 - 1)) ∧
      2 ^ (127 - 1) ≤ (0x40000000000000000000000000000000 : BitVec 128).toInt) := by decide

theorem test_witness_SignBitStandsFirstOrLast :
    (∃ (bits : Nat) (value : Int), bits = 1 ∧ -(2 ^ (bits - 1)) = value ∧ value < 2 ^ (bits - 1)) ∧
    (∃ (bits : Nat) (value : Int), 1 ≤ bits ∧ -(2 ^ (bits - 1)) ≤ value ∧ value + 1 = 2 ^ (bits - 1)) :=
  ⟨⟨1, -1, by decide, by decide, by decide⟩, ⟨8, 127, by decide, by decide, by decide⟩⟩

/-- Each width at the largest value of its largest count. -/
theorem test_witness_SignedAgreesWithUnsignedWrite :
    (0 ≤ (0x7F : BitVec 8).toInt ∧ (0x7F : BitVec 8).toInt < 2 ^ (8 - 1)) ∧
    (0 ≤ (0x7FFF : BitVec 16).toInt ∧ (0x7FFF : BitVec 16).toInt < 2 ^ (16 - 1)) ∧
    (0 ≤ (0x7FFFFFFF : BitVec 32).toInt ∧ (0x7FFFFFFF : BitVec 32).toInt < 2 ^ (32 - 1)) ∧
    (0 ≤ (0x7FFFFFFFFFFFFFFF : BitVec 64).toInt ∧ (0x7FFFFFFFFFFFFFFF : BitVec 64).toInt < 2 ^ (64 - 1)) ∧
    (0 ≤ (0x7FFFFFFFFFFFFFFFFFFFFFFFFFFFFFFF : BitVec 128).toInt ∧
      (0x7FFFFFFFFFFFFFFFFFFFFFFFFFFFFFFF : BitVec 128).toInt < 2 ^ (128 - 1)) := by decide

theorem test_witness_AlignedBytesGoInOneTransaction :
    (∃ (buf : List Byte) (s : State), buf ≠ [] ∧ s.failed = false ∧ s.plen = 0 ∧ s.SinkOk 1) ∧
    (∃ s : State, s.failed = false ∧ s.plen = 0) :=
  ⟨⟨[0xBC, 0xDE], empty .lsbFirst, by decide, by decide, by decide, by decide⟩,
   ⟨State.reset, by decide, by decide⟩⟩

theorem test_witness_UnalignedBytesArePackedOneByOne : ∀ o : Order,
    ∃ (buf : List Byte) (s : State) (b : Byte),
      buf = [b] ∧ s.Ready ∧ s.plen ≠ 0 ∧ s.SinkOk buf.length ∧ s.order = o := by
  intro o
  cases o
  · exact ⟨[0xAB], full7 .msbFirst, 0xAB, rfl, by decide, by decide, by decide, rfl⟩
  · exact ⟨[0xAB], full7 .lsbFirst, 0xAB, rfl, by decide, by decide, by decide, rfl⟩

theorem test_witness_BytesEqualPerByteWrites :
    ∃ (buf : List Byte) (s t u : State), s.Ready ∧ s.plen = 7 ∧ exec (.writeBytes buf) s = .next t ∧
      t.failed = false ∧ runAll (buf.map (fun b => .writeU8 8 b)) s = .next u ∧ u.failed = false := by
  obtain ⟨t, ht, hf⟩ := next_with (x := exec (.writeBytes [0xBC, 0xDE]) (full7 .msbFirst)) State.failed
    (b := false) (by decide)
  obtain ⟨u, hu, hg⟩ := next_with (x := runAll [.writeU8 8 0xBC, .writeU8 8 0xDE] (full7 .msbFirst))
    State.failed (b := false) (by decide)
  exact ⟨[0xBC, 0xDE], full7 .msbFirst, t, u, by decide, by decide, ht, hf, hu, hg⟩

theorem test_witness_UnaryAddsRunAndTerminator :
    (full7 .msbFirst).Ready ∧ (full7 .msbFirst).SinkOk ((7 + (129 + 1)) / 8) ∧
    (empty .lsbFirst).Ready ∧ (empty .lsbFirst).SinkOk ((0 + (0 + 1)) / 8) := by decide

/-- Both clauses where they meet. -/
theorem test_witness_UnaryChunksLeaveOneToSixtyFour :
    unaryChunks 64 = 0 ∧ unaryChunks 65 = 1 ∧ unaryChunks 128 = 1 ∧ unaryChunks 129 = 2 := by decide

theorem test_witness_not_failed : ∃ s : State, s.failed = false ∧ s.plen = 7 ∧ s.pval = 127 :=
  ⟨full7 .msbFirst, by decide, by decide, by decide⟩

theorem test_witness_ByteAlignPadsWithZeros :
    ((empty .msbFirst).Ready ∧ (empty .msbFirst).plen = 0) ∧
    (∀ o : Order, (full7 o).Ready ∧ (full7 o).plen ≠ 0 ∧ (full7 o).SinkOk 1) := by
  refine ⟨by decide, ?_⟩
  intro o
  cases o <;> decide

theorem test_witness_ByteAlignIsIdempotent :
    ∃ s t : State, s.Ready ∧ s.plen ≠ 0 ∧ exec .byteAlign s = .next t ∧ t.failed = false :=
  (next_with (x := exec .byteAlign (full7 .msbFirst)) State.failed (b := false) (by decide)).elim
    (fun t h => ⟨full7 .msbFirst, t, by decide, by decide, h.1, h.2⟩)

theorem test_witness_AlignThenDisposeLosesNothing :
    ∃ s : State, s.Ready ∧ s.plen ≠ 0 ∧ s.SinkOk 1 := ⟨full7 .msbFirst, by decide, by decide, by decide⟩

theorem test_witness_SinkFailureLeavesItsTrace :
    ∃ (i : Instr) (s t : State) (new : List Txn), exec i s = .next t ∧ s.failed = false ∧
      t.sink.txns = s.sink.txns ++ new ∧ (t.failed = true ∨ ∃ bytes e k, .failed bytes e k ∈ new) :=
  (next_with (x := exec (.writeUnary0 70) (blockAt .msbFirst 0 0 [.ok, .ok, .ok, .fail 1 1]))
    (fun t => (t.sink.txns, t.failed))
    (b := ([.accepted [0xFF], .accepted [0xFF], .accepted [0xFF], .failed [0xFF] 1 1], true))
    rfl).elim (fun t h => ⟨_, _, t, _, h.1, by decide, (Prod.mk.inj h.2).1, .inl (Prod.mk.inj h.2).2⟩)

/-- With f the doubling. -/
theorem test_witness_SinkErrorIsCarriedVerbatim :
    ∃ (f : ErrInfo → ErrInfo) (s t : State), f 0 = 0 ∧ exec (.writeBit true) s = .next t ∧
      t.rsps = [] ++ [⟨.sinkFailure, 0, 1⟩] ∧
      t.sink.txns.length ≤ s.sink.txns.length + s.sink.script.length :=
  (next_with _ (test_information_is_carried 1)).elim
    (fun t h => ⟨fun x => x + x, _, t, BitVec.add_zero 0, h.1, (Prod.mk.inj h.2).1,
      Nat.le_of_eq (Prod.mk.inj h.2).2⟩)

theorem test_witness_FirstFailedTransactionEndsCommand :
    ∃ (i : Instr) (s t : State) (ts : List (List Byte)) (j : Nat) (bytes : List Byte),
      s.failed = false ∧ s.SinkOk ts.length ∧ exec i s = .next t ∧ Completed s t ts 0 ∧
        ts[j]? = some bytes ∧ j + 1 = ts.length := by
  obtain ⟨t, h, ht⟩ := next_with (x := exec (.writeU16 16 0x1234) (empty .msbFirst))
    (fun t => (t.order, t.failed, t.inputs, t.rsps, t.sink))
    (b := (.msbFirst, false, [], okWith 0,
      ⟨[.accepted [0x12], .accepted [0x34]], List.replicate 15 .ok, 0⟩)) (by decide)
  simp only [Prod.mk.injEq] at ht
  obtain ⟨h1, h2, h3, h4, h5⟩ := ht
  exact ⟨_, _, t, [[0x12], [0x34]], 1, [0x34], by decide, by decide, h,
    ⟨h1, h2, h3, h4, by rw [h5]; decide, by rw [h5]; decide, by rw [h5]; decide⟩, by decide, by decide⟩

/-- Its clauses on FAILED = 1 before and FAILED = 0 after. -/
theorem test_witness_FrameOfEveryCommand :
    (∃ (i : Instr) (s t : State), exec i s = .next t ∧ s.failed = true) ∧
    (∃ (i : Instr) (s t : State), exec i s = .next t ∧ t.failed = false) :=
  ⟨(next_some (x := exec .dispose (failedBlock .msbFirst)) (by decide)).elim
      (fun t h => ⟨_, _, t, h, by decide⟩),
   (next_with (x := exec (.writeBit true) (full7 .msbFirst)) State.failed (b := false) (by decide)).elim
      (fun t h => ⟨_, _, t, h.1, h.2⟩)⟩

/-- A call sequence with a rejected call, on a block just reset whose sink will answer `ok`. -/
abbrev someCalls : List Instr :=
  [.writeU8 3 5, .writeU8 3 8, .writeBytes [0xBC], .writeUnary1 9, .byteAlign, .writeI8 4 (-5)]

/-- After a reset, and after a DISPOSE on a block that has emitted bytes before. -/
theorem test_witness_StreamIsTheCallsInOrder : ∀ o : Order, ∃ (is : List Instr) (s t : State),
    s.NewLife o ∧ Instr.dispose ∉ is ∧ runAll is s = .next t ∧ t.failed = false := by
  intro o
  cases o
  · exact (next_with (x := runAll someCalls (empty .msbFirst)) State.failed (b := false) (by decide)).elim
      (fun t h => ⟨someCalls, empty .msbFirst, t, by decide, by decide, h.1, h.2⟩)
  · exact (next_with (x := runAll someCalls
      { empty .lsbFirst with sink := ⟨[.accepted [0xA5]], List.replicate 9 .ok, 0⟩ })
      State.failed (b := false) (by decide)).elim
      (fun t h => ⟨someCalls, _, t, by decide, by decide, h.1, h.2⟩)

/-- Bit 8 is the first of the second byte emitted. -/
theorem test_witness_StreamBitsStandInTheirBytes : ∃ (s t : State) (bytes : List Byte) (b : Byte),
    s.NewLife .lsbFirst ∧ Instr.dispose ∉ someCalls ∧ runAll someCalls s = .next t ∧ t.failed = false ∧
      t.log = s.log ++ bytes ∧ bytes[8 / 8]? = some b :=
  (next_with (x := runAll someCalls (empty .lsbFirst)) (fun t => (t.failed, t.log))
    (b := (false, [0xE5, 0x05, 0x10])) (by decide)).elim
    (fun t h => ⟨empty .lsbFirst, t, [0xE5, 0x05, 0x10], 0x05, by decide, by decide, h.1, (Prod.mk.inj h.2).1,
      (Prod.mk.inj h.2).2, by decide⟩)

theorem test_witness_CountingTotalIsBitsOfBlock :
    ∃ (cw : Nat) (is : List Instr) (s t : State) (c : Counter) (sts : List Status),
      s.Fresh .msbFirst ∧ countAll cw is .fresh = some (sts, c) ∧ runAll is s = .next t ∧ t.failed = false :=
  (next_with (x := runAll someCalls (empty .msbFirst)) State.failed (b := false) (by decide)).elim
    (fun t h => ⟨32, someCalls, empty .msbFirst, t, ⟨28⟩, [.ok, .invalidInput, .ok, .ok, .ok, .ok],
      by decide, by decide, h.1, h.2⟩)

/-- Calls that all fit. -/
abbrev someValidCalls : List Instr := [.writeU8 3 5, .writeBytes [0xBC], .writeUnary1 9, .byteAlign]

theorem test_witness_PlaybackEqualsDirectCalls :
    ∃ (cw : Nat) (is : List Instr) (r : Recorder) (s t1 t2 t3 : State), s.Fresh .msbFirst ∧
      (∀ i ∈ is, fits i = true) ∧ recordAll cw is .fresh = some r ∧
      r.playback issueBlock s = .done t1 ∧ r.playback issueBlock s = .done t2 ∧
      runAll is s = .next t3 ∧ t3.failed = false := by
  obtain ⟨t3, h3, hf⟩ := next_with (x := runAll someValidCalls (empty .msbFirst)) State.failed (b := false)
    (by decide)
  have hr : ∃ r, recordAll 5 someValidCalls .fresh = some r ∧
      ∃ t, r.playback issueBlock (empty .msbFirst) = .done t := by
    refine ⟨⟨24, [.unsigned .w8 3 5, .bytes [0xBC], .unsigned .w32 9 0, .bit true, .bit false, .bit false,
      .bit false]⟩, by decide, ⟨_, rfl⟩⟩
  obtain ⟨r, hr, t, ht⟩ := hr
  exact ⟨5, someValidCalls, r, empty .msbFirst, t, t, t3, by decide, by decide, hr, ht, ht, h3, hf⟩

/-- The first clause at the last total that has room, and a total without room; the second clause. -/
theorem test_witness_RecorderDefersValidation :
    (inContract .byteAlign = true ∧ 9 + nominalBits 9 .byteAlign < 2 ^ 5 ∧
      30 + nominalBits 30 (.writeBit true) < 2 ^ 5 ∧
      Recorder.issue 5 ⟨31, []⟩ (.writeBit true) = .unmodelled) ∧
    (∃ (cw : Nat) (i : Instr) (s : State) (r : Recorder), InvalidCause i ∧ s.failed = false ∧
      recordAll cw [i] .fresh = some r) :=
  ⟨by decide, 2, .writeU8 3 8, full7 .msbFirst, ⟨3, [.unsigned .w8 3 8]⟩, by unfold InvalidCause; decide,
    by decide, by decide⟩

theorem test_witness_HuffmanWritesTheStepsInOrder :
    ∃ (table : EncodeTable Char) (symbol : Char) (steps : List (Count × BitVec table.hw.width)) (s t : State),
      s.Ready ∧ table.rows.lookup symbol = some steps ∧ steps.length = 2 ∧
        writeHuffman table symbol issueBlock s = .done t :=
  ⟨⟨.w32, [('e', [(1, 1), (3, 5)])]⟩, 'e', [(1, 1), (3, 5)], full7 .msbFirst, _, by decide, rfl, rfl, rfl⟩

end Sys2Proof.Tests
end

section
/-! The sink's failure information under another name (R15, R202): each way a command can end commutes with the
renaming. What a command plans does not read that information, so it is the same under every name. -/

namespace Sys2Proof.Machine

/-- A command's plan reads ORDER, PLEN and PVAL only, none of which holds the sink's information (R26). -/
@[simp] theorem plan_renamed (f : ErrInfo → ErrInfo) (s : State) (i : Instr) :
    plan (s.renamed f) i = plan s i := by
  cases i <;> rfl

theorem respond_renamed (f : ErrInfo → ErrInfo) (s : State) (r : Response) :
    (s.respond r).renamed f = (s.renamed f).respond (r.renamed f) := by
  simp [State.renamed, State.respond]

/-- A response without information keeps its place under a renaming that keeps zero. -/
theorem respond_noInfo_renamed {f : ErrInfo → ErrInfo} (hf : f 0 = 0) (s : State) (status : Status)
    (rdata : BitVec 12) :
    (s.respond ⟨status, rdata, 0⟩).renamed f = (s.renamed f).respond ⟨status, rdata, 0⟩ := by
  rw [respond_renamed, Response.renamed, hf]

theorem takeSinkFailure_renamed (f : ErrInfo → ErrInfo) (s : State) (k : Sink) (e : ErrInfo) :
    (s.takeSinkFailure k e).renamed f = (s.renamed f).takeSinkFailure (k.renamed f) (f e) := by
  simp [State.renamed, State.takeSinkFailure, Sink.renamed, Response.renamed]

theorem complete_txns (s : State) (ts : List (List Byte)) (p : Acc) (rdata : BitVec 12) :
    (s.complete ts p rdata).sink.txns = (present ts s.sink).1.txns := by
  obtain ⟨k, hk, -, hc⟩ | ⟨k, e, -, -, -, -, hk, -, -, hc⟩ := complete_cases s ts p rdata
  · simp [hc, hk]
  · simp [hc, hk]

/-- Completing a command commutes with the renaming, as long as the script has the answers (R15, R202). -/
theorem complete_renamed {f : ErrInfo → ErrInfo} (hf : f 0 = 0) {s : State} {ts : List (List Byte)} {p : Acc}
    {rdata : BitVec 12}
    (h : (s.complete ts p rdata).sink.txns.length ≤ s.sink.txns.length + s.sink.script.length) :
    (s.renamed f).complete ts p rdata = (s.complete ts p rdata).renamed f := by
  rw [complete_txns] at h
  have hr := present_renamed f h
  obtain ⟨k, hk, -, hc⟩ | ⟨k, e, -, -, -, -, hk, -, -, hc⟩ := complete_cases s ts p rdata
  · rw [hc, respond_noInfo_renamed hf]
    simp [State.complete, hr, hk, State.renamed, State.setPart]
  · rw [hc, takeSinkFailure_renamed]
    simp [State.complete, hr, hk]

/-- Settles O50: a refused or rejected command answers without information, and a command that completes its plan
carries the information of the answers along. -/
theorem sinkErrorIsCarriedVerbatim : Obligations.SinkErrorIsCarriedVerbatim := by
  intro f i s t hf h hlen
  rw [exec_eq, plan_renamed]
  obtain ⟨hs, rfl⟩ | ⟨hs, hv, rfl⟩ | ⟨hs, hv, q, hq, rfl⟩ := exec_cases h
  · rw [refuseFailed_eq, respond_noInfo_renamed hf]
    simp [answerWith, hs]
  · rw [takeInvalidInput_eq, respond_noInfo_renamed hf]
    simp [answerWith, hs, hv]
  · simp [answerWith, hs, hv, hq, complete_renamed hf hlen]

end Sys2Proof.Machine
end

section
/-! The registers at command boundaries and at reset events (R20 to R33, R208, R225). A command that answers a next
state gave one response and did nothing else, or it completed its plan. -/

namespace Sys2Proof.Machine

/-! What completing a command leaves unchanged. -/

@[simp] theorem complete_order (s : State) (ts : List (List Byte)) (p : Acc) (rdata : BitVec 12) :
    (s.complete ts p rdata).order = s.order := by
  obtain ⟨k, -, -, hc⟩ | ⟨k, e, -, -, -, -, -, -, -, hc⟩ := complete_cases s ts p rdata <;> simp [hc]

@[simp] theorem complete_inputs (s : State) (ts : List (List Byte)) (p : Acc) (rdata : BitVec 12) :
    (s.complete ts p rdata).inputs = s.inputs := by
  obtain ⟨k, -, -, hc⟩ | ⟨k, e, -, -, -, -, -, -, -, hc⟩ := complete_cases s ts p rdata <;> simp [hc]

/-- Completing a command only adds transactions (R42). -/
theorem txns_isPrefix_complete (s : State) (ts : List (List Byte)) (p : Acc) (rdata : BitVec 12) :
    s.sink.txns <+: (s.complete ts p rdata).sink.txns := by
  obtain ⟨k, -, ht, hc⟩ | ⟨k, e, _, _, _, _, -, -, ht, hc⟩ := complete_cases s ts p rdata
  · simp [hc, ht]
  · simp [hc, ht]

/-- A command that completes with FAILED = 0 had all its transactions accepted (R25). -/
theorem complete_txns_of_not_failed {s : State} {ts : List (List Byte)} {p : Acc} {rdata : BitVec 12}
    (h : (s.complete ts p rdata).failed = false) :
    (s.complete ts p rdata).sink.txns = s.sink.txns ++ ts.map Txn.accepted := by
  obtain ⟨k, -, ht, hc⟩ | ⟨k, e, -, -, -, -, -, -, -, hc⟩ := complete_cases s ts p rdata
  · simp [hc, ht]
  · simp [hc] at h

/-- The refusal and both rejections are a response and nothing else (R206, R208). -/
theorem rejectReserved_eq_respond (s : State) : ∃ r, s.rejectReserved = s.respond r := by
  unfold State.rejectReserved
  split
  · exact ⟨_, refuseFailed_eq s⟩
  · exact ⟨_, takeInvalidInput_eq s⟩

/-- A command that answers a next state only gave a response, or it completed its plan. -/
theorem exec_responds_or_completes {i : Instr} {s t : State} (h : exec i s = .next t) :
    (∃ r, t = s.respond r) ∨
      (s.failed = false ∧ fits i = true ∧
        ∃ q, plan s i = some q ∧ t = s.complete q.txns q.part q.rdata) := by
  obtain ⟨-, ht⟩ | ⟨-, -, ht⟩ | hcomplete := exec_cases h
  · exact .inl ⟨_, ht.trans (refuseFailed_eq s)⟩
  · exact .inl ⟨_, ht.trans (takeInvalidInput_eq s)⟩
  · exact .inr hcomplete

/-! The frame of a command. -/

/-- Settles O52: a response alone touches none of what is framed, and a plan is completed only from FAILED = 0. -/
theorem frameOfEveryCommand : Obligations.FrameOfEveryCommand := by
  intro i s t h
  obtain ⟨r, rfl⟩ | ⟨hs, -, q, -, rfl⟩ := exec_responds_or_completes h
  · exact ⟨rfl, rfl, by simp, fun hf => ⟨hf, rfl, rfl, rfl⟩, fun _ => ⟨[], by simp⟩⟩
  · exact ⟨complete_order .., complete_inputs .., txns_isPrefix_complete ..,
      fun hf => absurd hs (by simp [hf]), fun hf => ⟨q.txns, complete_txns_of_not_failed hf⟩⟩

/-- No command word, legal or reserved, writes ORDER (R20). -/
theorem runWord_order {w : CmdWord} {payload : List Byte} {s t : State} (h : runWord w payload s = .next t) :
    t.order = s.order := by
  obtain ⟨i, -, hi⟩ | ⟨-, -, rfl⟩ := runWord_cases h
  · exact (frameOfEveryCommand i s t hi).1
  · obtain ⟨r, hr⟩ := rejectReserved_eq_respond s
    rw [hr, respond_order]

/-- Settles O8: of the ways a step can go, the two that write ORDER fetch a reset event. -/
theorem onlyResetWritesOrder : Obligations.OnlyResetWritesOrder := by
  intro s t h hno
  obtain rfl | ⟨o, rest, -, hf, -⟩ | ⟨w, payload, rest, -, hrun⟩ | ⟨o, rest, -, -, -, -, -, -, hf, -⟩ :=
    step_cases h
  · rfl
  · exact absurd hf (hno o rest)
  · exact runWord_order (s := { s with inputs := rest }) hrun
  · exact absurd hf (hno o rest)

/-! The invariant of a command boundary. -/

/-- While FAILED = 0 the invariant says that P is at a command boundary (R18, R21, R23). -/
theorem part_boundary_of_inv {s : State} (hs : s.Inv) (hf : s.failed = false) : s.part.Boundary :=
  have ⟨hlen, hval⟩ := hs hf
  ⟨rfl, hlen, hval⟩

/-- Completing a command with a P at a command boundary meets the invariant: P is written as it is, or the command
ended in SinkFailure, after which the invariant says nothing (R57, R207). -/
theorem complete_inv (s : State) (ts : List (List Byte)) {p : Acc} (hp : p.Boundary) (rdata : BitVec 12) :
    (s.complete ts p rdata).Inv := by
  intro hf
  obtain ⟨k, -, -, hc⟩ | ⟨k, e, -, -, -, -, -, -, -, hc⟩ := complete_cases s ts p rdata
  · obtain ⟨hlen, hval⟩ := hp.toNat_registers
    rw [hc, respond_plen, respond_pval, setPart_plen, setPart_pval, hlen, hval]
    exact ⟨hp.len, hp.clean⟩
  · simp [hc] at hf

theorem resetBlock_inv (s : State) (o : Order) : (s.resetBlock o).Inv := fun _ => by simp

theorem strikeReset_inv (s t : State) (o : Order) (answered taken : Nat) :
    (s.strikeReset t o answered taken).Inv :=
  resetBlock_inv _ o

theorem exec_keeps_inv {i : Instr} {s t : State} (hs : s.Inv) (h : exec i s = .next t) : t.Inv := by
  obtain ⟨r, rfl⟩ | ⟨hf, hfits, q, hq, rfl⟩ := exec_responds_or_completes h
  · exact hs
  · obtain ⟨q', hq', hb⟩ := plan_boundary (part_boundary_of_inv hs hf) hfits
    obtain rfl : q' = q := by simpa [hq'] using hq
    exact complete_inv s q'.txns hb q'.rdata

theorem runWord_keeps_inv {w : CmdWord} {payload : List Byte} {s t : State} (hs : s.Inv)
    (h : runWord w payload s = .next t) : t.Inv := by
  obtain ⟨i, -, hi⟩ | ⟨-, -, rfl⟩ := runWord_cases h
  · exact exec_keeps_inv hs hi
  · obtain ⟨r, hr⟩ := rejectReserved_eq_respond s
    rw [hr]
    exact hs

/-- Settles O14: a command keeps the invariant because its plan leaves P at a command boundary, and a reset event
of either kind establishes it. -/
theorem stepKeepsAccumulatorInvariant : Obligations.StepKeepsAccumulatorInvariant := by
  intro s t hs h
  obtain rfl | ⟨o, -, later, -, rfl⟩ | ⟨w, payload, rest, -, hrun⟩ | ⟨o, -, a, k, -, -, rest, u, -, -, rfl⟩ :=
    step_cases h
  · exact hs
  · exact resetBlock_inv _ o
  · exact runWord_keeps_inv (s := { s with inputs := rest }) hs hrun
  · exact strikeReset_inv _ u o a k

/-! The CMD channel and the reset event. -/

/-- A word whose payload is not all there is not started (R66). -/
theorem fetch_beats_short {w : CmdWord} {arrived : List Byte} (h : arrived.length < payloadCount w) :
    fetch (beatsOf w arrived) = .waiting := by
  simp [beatsOf, fetch, gather_short h]

/-- Settles O11: the word is fetched as waiting, on which the step has no effect. -/
theorem commandAwaitsItsPayload : Obligations.CommandAwaitsItsPayload := by
  intro s w arrived hs h
  rw [step_plain (by simp [hs, beatsOf])]
  simp [stepPlain, hs, fetch_beats_short h]

/-- Settles O9: the step fetches the reset event and applies it. -/
theorem resetEventSetsRegisters : Obligations.ResetEventSetsRegisters := by
  intro s o rest hs
  rw [step_plain (by simp [hs])]
  simp [stepPlain, hs, fetch, State.resetBlock]

/-- Settles O13: every register stands at its value after reset, and the invariant is that of the reset event. -/
theorem resetStateIsEmptyAndAligned : Obligations.ResetStateIsEmptyAndAligned := fun o =>
  ⟨rfl, rfl, rfl, rfl, resetBlock_inv (State.resetWith o) o, rfl⟩

end Sys2Proof.Machine
end

section
/-! The bits of a value, of sink bytes and of an accumulator (R48, R49, R91): a value's bits come apart where its
packed form does, and the bits determine the value. -/

namespace Sys2Proof.Machine

@[simp] theorem seq_length (o : Order) (n x : Nat) : (seq o n x).length = n := by
  cases o <;> simp [seq]

@[simp] theorem seq_zero (o : Order) (x : Nat) : seq o 0 x = [] := List.length_eq_zero_iff.mp (seq_length o 0 x)

/-- The place of stream bit `i` in a value of `n` bits (R48). -/
def bitIndex (o : Order) (n i : Nat) : Nat :=
  match o with
  | .msbFirst => n - 1 - i
  | .lsbFirst => i

@[simp] theorem bitIndex_msb (n i : Nat) : bitIndex .msbFirst n i = n - 1 - i := rfl

@[simp] theorem bitIndex_lsb (n i : Nat) : bitIndex .lsbFirst n i = i := rfl

theorem bitIndex_lt {o : Order} {n i : Nat} (h : i < n) : bitIndex o n i < n := by
  cases o
  · rw [bitIndex_msb]; omega
  · exact h

theorem seq_getElem (o : Order) {n x i : Nat} (h : i < (seq o n x).length) :
    (seq o n x)[i] = x.testBit (bitIndex o n i) := by
  cases o <;> simp [seq, bitIndex]

/-- Under MSB_FIRST the high part of a value goes first. -/
theorem seq_msb_append (l : Nat) {n x v : Nat} (hv : v < 2 ^ n) :
    seq .msbFirst (l + n) (x * 2 ^ n + v) = seq .msbFirst l x ++ seq .msbFirst n v := by
  refine List.ext_getElem (by simp) fun i h _ => ?_
  have hi : i < l + n := by simpa using h
  rw [seq_getElem, bitIndex_msb, mul_comm, Nat.testBit_two_pow_mul_add _ hv]
  by_cases hl : i < l
  · rw [List.getElem_append_left (by simpa using hl), seq_getElem, bitIndex_msb, if_neg (by omega),
      show l + n - 1 - i - n = l - 1 - i by omega]
  · rw [List.getElem_append_right (by simpa using hl), seq_getElem, bitIndex_msb, if_pos (by omega), seq_length,
      show l + n - 1 - i = n - 1 - (i - l) by omega]

/-- Under LSB_FIRST the low part of a value goes first. -/
theorem seq_lsb_append {l x : Nat} (n v : Nat) (hx : x < 2 ^ l) :
    seq .lsbFirst (l + n) (x + v * 2 ^ l) = seq .lsbFirst l x ++ seq .lsbFirst n v := by
  refine List.ext_getElem (by simp) fun i h _ => ?_
  rw [seq_getElem, bitIndex_lsb, add_comm x, mul_comm, Nat.testBit_two_pow_mul_add _ hx]
  by_cases hl : i < l
  · rw [List.getElem_append_left (by simpa using hl), seq_getElem, bitIndex_lsb, if_pos hl]
  · rw [List.getElem_append_right (by simpa using hl), seq_getElem, bitIndex_lsb, if_neg hl, seq_length]

/-- The bits of a value below 2^n determine it. -/
theorem seq_injective {o : Order} {n x y : Nat} (hx : x < 2 ^ n) (hy : y < 2 ^ n) (h : seq o n x = seq o n y) :
    x = y := by
  refine Nat.eq_of_testBit_eq fun j => ?_
  by_cases hj : j < n
  · obtain ⟨i, hi, rfl⟩ : ∃ i, i < n ∧ bitIndex o n i = j := by
      cases o
      · exact ⟨n - 1 - j, by omega, show n - 1 - (n - 1 - j) = j by omega⟩
      · exact ⟨j, hj, rfl⟩
    rw [← seq_getElem o (by simpa using hi), ← seq_getElem o (by simpa using hi)]
    simp only [h]
  · have hle : 2 ^ n ≤ 2 ^ j := Nat.pow_le_pow_right (by omega) (by omega)
    rw [Nat.testBit_lt_two_pow (hx.trans_le hle), Nat.testBit_lt_two_pow (hy.trans_le hle)]

/-- A run of equal bits (R145, R148). -/
theorem seq_runPattern (o : Order) (fill : Bool) (m : Nat) : seq o m (runPattern fill m) = List.replicate m fill := by
  refine List.ext_getElem (by simp) fun i h _ => ?_
  have hi : bitIndex o m i < m := bitIndex_lt (by simpa using h)
  rw [seq_getElem, List.getElem_replicate]
  cases fill <;> simp [runPattern, ones, hi]

theorem seq_bitValue (o : Order) (b : Bool) : seq o 1 (bitValue b) = [b] := by
  cases o <;> cases b <;> rfl

/-! Sink bytes. -/

@[simp] theorem bytesBits_nil (o : Order) : bytesBits o [] = [] := rfl

@[simp] theorem bytesBits_cons (o : Order) (b : Byte) (bs : List Byte) :
    bytesBits o (b :: bs) = seq o 8 b.toNat ++ bytesBits o bs := rfl

@[simp] theorem bytesBits_append (o : Order) (bs cs : List Byte) :
    bytesBits o (bs ++ cs) = bytesBits o bs ++ bytesBits o cs := List.flatMap_append

@[simp] theorem bytesBits_length (o : Order) (bs : List Byte) : (bytesBits o bs).length = 8 * bs.length := by
  induction bs with
  | nil => rfl
  | cons b bs ih => simp [ih]; omega

/-- A value handed over as a byte keeps its low eight bits (R101). -/
@[simp] theorem seq_byteOf (o : Order) (v : Nat) : seq o 8 (byteOf v).toNat = seq o 8 v := by
  refine List.ext_getElem (by simp) fun i h _ => ?_
  have hi : bitIndex o 8 i < 8 := bitIndex_lt (by simpa using h)
  rw [seq_getElem, seq_getElem, BitVec.testBit_toNat, byteOf, BitVec.getLsbD_ofNat, decide_eq_true hi, Bool.true_and]

/-- The bits of sink bytes determine the bytes. -/
theorem bytesBits_injective {o : Order} {bs cs : List Byte} (h : bytesBits o bs = bytesBits o cs) : bs = cs := by
  induction bs generalizing cs with
  | nil => cases cs with
    | nil => rfl
    | cons c cs => exact absurd (congrArg List.length h) (by simp; omega)
  | cons b bs ih => cases cs with
    | nil => exact absurd (congrArg List.length h) (by simp)
    | cons c cs =>
      obtain ⟨hb, hbs⟩ := List.append_inj (s₁ := seq o 8 b.toNat) h (by simp)
      rw [BitVec.eq_of_toNat_eq (seq_injective b.isLt c.isLt hb), ih hbs]

/-- Stream bit `k` of sink bytes stands in byte `k div 8` at its place of the order (R49). -/
theorem bytesBits_getElem? (o : Order) {bs : List Byte} {k : Nat} {b : Byte} (h : bs[k / 8]? = some b) :
    (bytesBits o bs)[k]? = some (b.getLsbD (bitIndex o 8 (k % 8))) := by
  induction bs generalizing k with
  | nil => simp at h
  | cons c bs ih =>
    by_cases hk : k < 8
    · have hbit : k < (seq o 8 c.toNat).length := by simpa using hk
      obtain rfl : c = b := by simpa [Nat.div_eq_of_lt hk] using h
      rw [bytesBits_cons, List.getElem?_append_left hbit, List.getElem?_eq_getElem hbit, seq_getElem,
        Nat.mod_eq_of_lt hk, BitVec.testBit_toNat]
    · obtain ⟨j, rfl⟩ : ∃ j, k = j + 8 := ⟨k - 8, by omega⟩
      have hj : bs[j / 8]? = some b := by simpa [show (j + 8) / 8 = j / 8 + 1 by omega] using h
      rw [bytesBits_cons, List.getElem?_append_right (by simp)]
      simpa using ih hj

/-- Two streams of whole bytes and fewer than eight pending bits that agree, agree in their bytes and in what is
pending. -/
theorem bytesBits_append_inj {o : Order} {bs cs : List Byte} {p q : List Bool} (hp : p.length ≤ 7)
    (hq : q.length ≤ 7) (h : bytesBits o bs ++ p = bytesBits o cs ++ q) : bs = cs ∧ p = q := by
  have hlen : bs.length = cs.length := by
    have := congrArg List.length h
    simp only [List.length_append, bytesBits_length] at this
    omega
  obtain ⟨hb, hpq⟩ := List.append_inj h (by simp [hlen])
  exact ⟨bytesBits_injective hb, hpq⟩

/-- The bits of a value of whole bytes are those of its bytes, the front one first (R50). -/
theorem seq_whole_bytes (o : Order) (k v : Nat) :
    seq o (8 * k) v = bytesBits o ((List.range k).map fun j => byteOf (v / 2 ^ (8 * bitIndex o k j))) := by
  refine List.ext_getElem? fun i => ?_
  by_cases hi : i < 8 * k
  · have hbyte : ((List.range k).map fun j => byteOf (v / 2 ^ (8 * bitIndex o k j)))[i / 8]? =
        some (byteOf (v / 2 ^ (8 * bitIndex o k (i / 8)))) := by
      simp [List.getElem?_range (show i / 8 < k by omega)]
    have hplace : bitIndex o 8 (i % 8) + 8 * bitIndex o k (i / 8) = bitIndex o (8 * k) i := by
      cases o <;> simp only [bitIndex] <;> omega
    rw [bytesBits_getElem? o hbyte, List.getElem?_eq_getElem (by simpa using hi), seq_getElem, byteOf,
      BitVec.getLsbD_ofNat, Nat.testBit_div_two_pow, hplace, decide_eq_true (bitIndex_lt (by omega)), Bool.true_and]
  · rw [List.getElem?_eq_none (by simpa using hi), List.getElem?_eq_none (by simpa using hi)]

/-! The queue of an accumulator. -/

@[simp] theorem queue_length (o : Order) (a : Acc) : (a.queue o).length = a.len := seq_length ..

theorem queue_of_len_zero (o : Order) {a : Acc} (h : a.len = 0) : a.queue o = [] := by
  rw [Acc.queue, h, seq_zero]

/-- Push appends the value's bits to the queue (R92, R93). -/
theorem push_queue {o : Order} {a a' : Acc} {n v : Nat} (h : push o a n v = some a') (ha : a.Clean) :
    a'.queue o = a.queue o ++ seq o n v := by
  obtain ⟨hl, hv⟩ := push_pre h
  cases o with
  | msbFirst =>
    obtain rfl := Option.some.inj ((push_msb hl hv).symm.trans h)
    exact seq_msb_append a.len hv
  | lsbFirst =>
    obtain rfl := Option.some.inj ((push_lsb hl hv).symm.trans h)
    exact seq_lsb_append n v ha

/-- Pop takes the value's bits from the front of the queue (R94, R95). -/
theorem pop_queue {o : Order} {a a' : Acc} {n r : Nat} (h : pop o a n = some (r, a')) :
    seq o n r ++ a'.queue o = a.queue o := by
  have hn := pop_pre h
  cases o with
  | msbFirst =>
    obtain ⟨rfl, rfl⟩ := Prod.mk.inj (Option.some.inj ((pop_msb hn).symm.trans h))
    rw [Acc.queue, Acc.queue, ← seq_msb_append n (Nat.mod_lt _ (Nat.two_pow_pos _)), Nat.add_sub_cancel' hn,
      Nat.div_add_mod']
  | lsbFirst =>
    obtain ⟨rfl, rfl⟩ := Prod.mk.inj (Option.some.inj ((pop_lsb hn).symm.trans h))
    rw [Acc.queue, Acc.queue, ← seq_lsb_append (a.len - n) _ (Nat.mod_lt _ (Nat.two_pow_pos _)),
      Nat.add_sub_cancel' hn, Nat.mod_add_div']

end Sys2Proof.Machine
end

section
/-! The stream law of each datapath (R110 to R114, R136, R145 to R148, R161): the bytes emitted and then the queue of
P are the queue of P before and then the bits of the operands. -/

namespace Sys2Proof.Machine

/-- The datapath answers from P, adds these bits to the stream, and leaves P at a command boundary. -/
def Adds (o : Order) (e : Option Emission) (p : Acc) (bits : List Bool) : Prop :=
  ∃ e', e = some e' ∧ e'.part.Boundary ∧ bytesBits o e'.bytes ++ e'.part.queue o = p.queue o ++ bits

/-- As many whole bytes as there are were emitted, and the rest is pending (R116). -/
theorem counts_of_stream_eq {o : Order} {bytes : List Byte} {p q : Acc} {bits : List Bool} (hq : q.len ≤ 7)
    (h : bytesBits o bytes ++ q.queue o = p.queue o ++ bits) :
    bytes.length = (p.len + bits.length) / 8 ∧ q.len = (p.len + bits.length) % 8 := by
  have := congrArg List.length h
  simp only [List.length_append, bytesBits_length, queue_length] at this
  omega

theorem Adds.nothing (o : Order) {p : Acc} (hp : p.Boundary) : Adds o (some ⟨[], p⟩) p [] :=
  ⟨_, rfl, hp, by simp⟩

/-- One datapath after another adds the bits of both; the second starts from the P the first one leaves. -/
theorem Adds.andThen {o : Order} {e : Option Emission} {f : Acc → Option Emission} {p : Acc} {bits more : List Bool}
    (he : Adds o e p bits)
    (hf : ∀ q : Acc, q.Boundary → q.len = (p.len + bits.length) % 8 → Adds o (f q) q more) :
    Adds o (Emission.andThen e f) p (bits ++ more) := by
  obtain ⟨e1, rfl, hb1, h1⟩ := he
  obtain ⟨e2, he2, hb2, h2⟩ := hf _ hb1 (counts_of_stream_eq hb1.len h1).2
  refine ⟨⟨e1.bytes ++ e2.bytes, e2.part⟩, by simp [Emission.andThen, he2], hb2, ?_⟩
  rw [bytesBits_append, List.append_assoc, h2, ← List.append_assoc, h1, List.append_assoc]

theorem emitIfFull_stream {o : Order} {p : Acc} {e : Emission} (h : emitIfFull o p = some e) :
    bytesBits o e.bytes ++ e.part.queue o = p.queue o := by
  unfold emitIfFull at h
  split at h
  · split at h
    · cases h
    · next hpop =>
      obtain rfl := Option.some.inj h
      simpa using pop_queue hpop
  · obtain rfl := Option.some.inj h
    rfl

theorem writeBitPath_adds (o : Order) (b : Bool) {p : Acc} (hp : p.Boundary) :
    Adds o (writeBitPath o b p) p [b] := by
  obtain ⟨e, he, hb, -, -⟩ := writeBitPath_moves o b hp
  refine ⟨e, he, hb, ?_⟩
  unfold writeBitPath at he
  split at he
  · cases he
  · next hpush => rw [emitIfFull_stream he, push_queue hpush hp.clean, seq_bitValue]

/-- The fill step hands the front of W over to P (R113). -/
theorem fillStep_stream {o : Order} {w w' p : Acc} {e : Emission} (h : fillStep o w p = some (e, w'))
    (hp : p.Clean) : bytesBits o e.bytes ++ e.part.queue o ++ w'.queue o = p.queue o ++ w.queue o := by
  unfold fillStep at h
  split at h
  · cases h
  · next hpop =>
    split at h
    · cases h
    · next hpush =>
      split at h
      · cases h
      · next hemit =>
        obtain ⟨rfl, rfl⟩ := Prod.mk.inj (Option.some.inj h)
        rw [emitIfFull_stream hemit, push_queue hpush hp, List.append_assoc, pop_queue hpop]

/-- The whole bytes drained from W are its front (R113). -/
theorem drainBytes_stream {o : Order} {k : Nat} {w w' : Acc} {bytes : List Byte}
    (h : drainBytes o k w = some (bytes, w')) : bytesBits o bytes ++ w'.queue o = w.queue o := by
  induction k generalizing w bytes with
  | zero =>
    obtain ⟨rfl, rfl⟩ := Prod.mk.inj (Option.some.inj h)
    rfl
  | succ k ih =>
    unfold drainBytes at h
    split at h
    · cases h
    · next hpop =>
      split at h
      · cases h
      · next hdrain =>
        obtain ⟨rfl, rfl⟩ := Prod.mk.inj (Option.some.inj h)
        rw [bytesBits_cons, List.append_assoc, ih hdrain, seq_byteOf, pop_queue hpop]

/-- The carry step appends what is left of W to P (R113). -/
theorem carryStep_stream {o : Order} {w p p' : Acc} (h : carryStep o w p = some p') (hp : p.Clean) :
    p'.queue o = p.queue o ++ w.queue o := by
  unfold carryStep at h
  split at h
  · cases h
  · next v w' hpop =>
    have hall : w'.queue o = [] := by
      have := congrArg List.length (pop_queue hpop)
      simp only [List.length_append, seq_length, queue_length] at this
      exact queue_of_len_zero o (by omega)
    rw [push_queue h hp, ← pop_queue hpop, hall, List.append_nil]

/-- `pack` adds the value's bits: on the fast path they join the queue; on the slow path they go through W, whose
front fills P, whose whole bytes are drained, and whose rest starts the new queue (R112, R113, R114). -/
theorem pack_adds (o : Order) {c : Carrier} {bits value : Nat} {p : Acc} (hp : p.Boundary) (hb : bits ≤ c.width)
    (hv : value < 2 ^ bits) : Adds o (pack o c bits value p) p (seq o bits value) := by
  obtain ⟨e, he, hbound, -, -⟩ := pack_moves o hp hb hv
  refine ⟨e, he, hbound, ?_⟩
  unfold pack at he
  split at he
  · split at he
    · cases he
    · next hpush =>
      obtain rfl := Option.some.inj he
      exact push_queue hpush hp.clean
  · next hroom =>
    have hfull : 8 - p.len ≤ bits := by simpa [Acc.room, hp.carrier] using hroom
    obtain ⟨e1, w1, hfill, -, -, hempty, hclean, -, -⟩ := fillStep_spec o (w := ⟨c, bits, value⟩) hp hv hfull
    have hq1 := fillStep_stream hfill hp.clean
    rw [queue_of_len_zero o hempty, List.append_nil] at hq1
    simp only [packSlow, seed_spec hb hv, hfill] at he
    split at he
    · cases he
    · next hdrain =>
      split at he
      · cases he
      · next hcarry =>
        obtain rfl := Option.some.inj he
        rw [bytesBits_append, carryStep_stream hcarry hclean, queue_of_len_zero o hempty, List.nil_append,
          List.append_assoc, drainBytes_stream hdrain, hq1]
        rfl

/-- Byte by byte, the bits of the buffer's bytes in order (R136). -/
theorem bytesPath_adds (o : Order) (buf : List Byte) {p : Acc} (hp : p.Boundary) :
    Adds o (bytesPath o buf p) p (bytesBits o buf) := by
  induction buf generalizing p with
  | nil => exact Adds.nothing o hp
  | cons b rest ih => exact (pack_adds o hp le_rfl b.isLt).andThen fun q hq _ => ih hq

theorem chunksPath_adds (o : Order) (fill : Bool) (k : Nat) {p : Acc} (hp : p.Boundary) :
    Adds o (chunksPath o fill k p) p (List.replicate (64 * k) fill) := by
  induction k generalizing p with
  | zero => exact Adds.nothing o hp
  | succ k ih =>
    have h := (pack_adds o (c := .w64) (bits := 64) hp le_rfl (runPattern_lt fill 64)).andThen fun q hq _ => ih hq
    rwa [seq_runPattern, List.replicate_append_replicate, show 64 + 64 * k = 64 * (k + 1) by ring] at h

theorem remainderPath_adds (o : Order) (fill : Bool) {m : Nat} (hm : m ≤ 64) {p : Acc} (hp : p.Boundary) :
    Adds o (remainderPath o fill m p) p (List.replicate m fill) := by
  by_cases h : m = 0
  · subst h
    exact Adds.nothing o hp
  · have hw : m ≤ (unaryCarrier m).width := by
      unfold unaryCarrier
      split
      · rw [width_w32]; omega
      · exact hm
    simpa [remainderPath, h, seq_runPattern] using pack_adds o hp hw (runPattern_lt fill m)

/-- A unary command adds its run, then its terminating bit (R145, R148). -/
theorem unaryPath_adds (o : Order) (fill : Bool) (n : Nat) {p : Acc} (hp : p.Boundary) :
    Adds o (unaryPath o fill n p) p (List.replicate n fill ++ [!fill]) := by
  have hm : n - 64 * unaryChunks n ≤ 64 := by unfold unaryChunks; omega
  have h := ((chunksPath_adds o fill (unaryChunks n) hp).andThen
    fun q hq _ => remainderPath_adds o fill hm hq).andThen fun q hq _ => writeBitPath_adds o (!fill) hq
  rwa [List.replicate_append_replicate, Nat.add_sub_cancel' (by unfold unaryChunks; omega)] at h

/-- BYTE_ALIGN adds the zero bits missing to the byte boundary (R161), in any number of rounds that is not
smaller. -/
theorem alignLoop_adds (o : Order) (rounds : Nat) {p : Acc} (hp : p.Boundary) (hr : (8 - p.len) % 8 ≤ rounds) :
    Adds o (alignLoop o rounds p) p (List.replicate ((8 - p.len) % 8) false) := by
  induction rounds generalizing p with
  | zero =>
    have hl := hp.len
    have : p.len = 0 := by omega
    simpa [alignLoop, Acc.isEmpty, this] using Adds.nothing o hp
  | succ k ih =>
    by_cases h : p.len = 0
    · simpa [alignLoop, Acc.isEmpty, h] using Adds.nothing o hp
    · have hl := hp.len
      have hstep := (writeBitPath_adds o false hp).andThen (f := alignLoop o k)
        (more := List.replicate (7 - p.len) false) fun q hq hlen => by
          rw [List.length_singleton] at hlen
          have hrest : (8 - q.len) % 8 = 7 - p.len := by omega
          exact hrest ▸ ih hq (by omega)
      have hbits : (8 - p.len) % 8 = 7 - p.len + 1 := by omega
      simpa [alignLoop, Acc.isEmpty, h, hbits, List.replicate_succ] using hstep

end Sys2Proof.Machine
end

section
/-! The sink log is append-only (R42, R43, R226): whatever a step does, the transactions so far stand in front. -/

namespace Sys2Proof.Machine

/-- The log grows with the transactions (R42). -/
theorem log_isPrefix_of_txns {s t : State} (h : s.sink.txns <+: t.sink.txns) : s.log <+: t.log := by
  obtain ⟨more, hmore⟩ := h
  exact ⟨more.flatMap Txn.taken, by rw [State.log, State.log, Sink.log, Sink.log, ← hmore, List.flatMap_append]⟩

theorem runWord_txns_isPrefix {w : CmdWord} {payload : List Byte} {s t : State}
    (h : runWord w payload s = .next t) : s.sink.txns <+: t.sink.txns := by
  obtain ⟨i, -, hi⟩ | ⟨-, -, rfl⟩ := runWord_cases h
  · obtain ⟨-, -, htxns, -⟩ := frameOfEveryCommand i s t hi
    exact htxns
  · obtain ⟨r, hr⟩ := rejectReserved_eq_respond s
    rw [hr, respond_sink]

/-- A command struck by a reset keeps the transactions that came before it (R226). -/
theorem strikeReset_txns_isPrefix (s t : State) (o : Order) (answered taken : Nat) :
    s.sink.txns <+: (s.strikeReset t o answered taken).sink.txns :=
  ⟨_, rfl⟩

/-- Settles O16: of the ways a step can go, a reset event leaves the sink alone, and a command, answered or struck,
only adds transactions. -/
theorem sinkLogOnlyGrows : Obligations.SinkLogOnlyGrows := by
  intro s t h
  have htxns : s.sink.txns <+: t.sink.txns := by
    obtain rfl | ⟨o, -, later, -, rfl⟩ | ⟨w, payload, rest, -, hrun⟩ | ⟨o, -, a, k, -, -, rest, u, -, -, rfl⟩ :=
      step_cases h
    · simp
    · simp
    · exact runWord_txns_isPrefix (s := { s with inputs := rest }) hrun
    · exact strikeReset_txns_isPrefix { s with inputs := rest } u o a k
  exact ⟨htxns, log_isPrefix_of_txns htxns⟩

end Sys2Proof.Machine
end

section
/-! Completing a command on a sink that answers `ok`, and the commands that add the bits of a value or of a buffer
(R44, R50, R111 to R116, R135, R136). -/

namespace Sys2Proof.Machine

/-! Completing a plan. -/

/-- A block that is ready has P at a command boundary. -/
theorem State.Ready.boundary {s : State} (hs : s.Ready) : s.part.Boundary :=
  part_boundary_of_inv (fun _ => hs.2) hs.1

theorem exec_of_plan {i : Instr} {s : State} {q : Plan} (hs : s.failed = false) (hf : fits i = true)
    (hq : plan s i = some q) : exec i s = .next (s.complete q.txns q.part q.rdata) := by
  simp [exec_eq, answerWith, hs, hf, hq]

/-- If the sink answers `ok`, the command completes with all its transactions accepted (R42, R56). -/
theorem completed_complete {s : State} {ts : List (List Byte)} (hs : s.failed = false) (hk : s.SinkOk ts.length)
    (p : Acc) (rdata : BitVec 12) : Completed s (s.complete ts p rdata) ts rdata := by
  simp only [State.complete, present_ok hk]
  exact ⟨rfl, hs, rfl, rfl, rfl, rfl, rfl⟩

/-- If no transaction failed, PLEN and PVAL are written from the plan. -/
theorem complete_registers {s : State} {ts : List (List Byte)} {p : Acc} {rdata : BitVec 12}
    (h : (s.complete ts p rdata).failed = false) :
    (s.complete ts p rdata).plen = BitVec.ofNat 4 p.len ∧ (s.complete ts p rdata).pval = BitVec.ofNat 8 p.val := by
  obtain ⟨k, -, -, hc⟩ | ⟨k, e, -, -, -, -, -, -, -, hc⟩ := complete_cases s ts p rdata
  · simp [hc]
  · simp [hc] at h

/-- If no transaction failed, P is as planned. -/
theorem complete_part {s : State} {ts : List (List Byte)} {p : Acc} {rdata : BitVec 12} (hp : p.Boundary)
    (h : (s.complete ts p rdata).failed = false) : (s.complete ts p rdata).part = p := by
  obtain ⟨hplen, hpval⟩ := complete_registers h
  obtain ⟨hlen, hval⟩ := hp.toNat_registers
  rw [State.part, hplen, hpval, hlen, hval, ← hp.carrier]

/-- If no transaction failed, what is pending is the queue of the planned P. -/
theorem complete_pending {s : State} {ts : List (List Byte)} {p : Acc} {rdata : BitVec 12} (hp : p.Boundary)
    (h : (s.complete ts p rdata).failed = false) : (s.complete ts p rdata).pending = p.queue s.order := by
  rw [State.pending, complete_part hp h, complete_order]

theorem pending_eq (s : State) : s.pending = seq s.order s.plen.toNat s.pval.toNat := rfl

theorem pending_length (s : State) : s.pending.length = s.plen.toNat := queue_length ..

/-- A ready block on a sink that answers `ok` adds to the stream what the datapath adds (R56, R114). -/
theorem exec_streams {i : Instr} {s : State} {e : Option Emission} {bits : List Bool} (hs : s.Ready)
    (hf : fits i = true) (hplan : plan s i = planOf e) (he : Adds s.order e s.part bits)
    (hk : s.SinkOk ((s.plen.toNat + bits.length) / 8)) : ∃ t, exec i s = .next t ∧ Streamed s t bits := by
  obtain ⟨e', rfl, hb, hbits⟩ := he
  obtain ⟨hcount, hlen⟩ := counts_of_stream_eq hb.len hbits
  have hdone : Completed s (s.complete (singles e'.bytes) e'.part 0) (singles e'.bytes) 0 :=
    completed_complete hs.1 (by simpa [singles, hcount] using hk) _ _
  have hpart := complete_part hb hdone.failed
  refine ⟨_, exec_of_plan hs.1 hf hplan, ⟨e'.bytes, hdone, ?_, hcount⟩, ?_, ?_⟩
  · exact (complete_pending hb hdone.failed).symm ▸ hbits
  · exact (congrArg Acc.len hpart).trans hlen
  · have hclean : (s.complete (singles e'.bytes) e'.part 0).part.Clean := hpart.symm ▸ hb.clean
    exact hclean

/-- The bits a command added determine its transactions and what is pending. -/
theorem Streamed.eq_of_bits {s t : State} {bits : List Bool} (h : Streamed s t bits) {bytes : List Byte} {n r : Nat}
    (hn : n ≤ 7) (hr : r < 2 ^ n) (hbits : s.pending ++ bits = bytesBits s.order bytes ++ seq s.order n r) :
    Completed s t (singles bytes) 0 ∧ t.plen.toNat = n ∧ t.pval.toNat = r := by
  obtain ⟨⟨emitted, hdone, hstream, -⟩, hplen, hpval⟩ := h
  rw [pending_eq t, hdone.order] at hstream
  obtain ⟨rfl, hseq⟩ := bytesBits_append_inj (by rw [seq_length]; omega) (by rwa [seq_length]) (hstream.trans hbits)
  have hlen : t.plen.toNat = n := by simpa using congrArg List.length hseq
  rw [hlen] at hseq hpval
  exact ⟨hdone, hlen, seq_injective hpval hr hseq⟩

/-! WRITE. -/

/-- WRITE of a value that fits adds its bits, whatever its carrier (R111, R114). -/
theorem writesBits_of_pack {i : Instr} {c : Carrier} {n v : Nat} (hfits : fits i = fitsUnsigned c n v)
    (hplan : ∀ s, plan s i = planOf (pack s.order c n v s.part)) (hn : n ≤ c.width) (hv : v < 2 ^ n) :
    WritesBits i (fun o => seq o n v) := by
  have hvc : v < 2 ^ c.width := hv.trans_le (Nat.pow_le_pow_right (by omega) hn)
  exact fun s hs hk => exec_streams hs (hfits.trans ((fitsUnsigned_iff hvc).mpr ⟨hn, hv⟩)) (hplan s)
    (pack_adds s.order hs.boundary hn hv) hk

/-- Settles O25: each width packs, under the validation of its carrier. -/
theorem writeAddsItsBits : Obligations.WriteAddsItsBits := fun _ =>
  ⟨fun _ => writesBits_of_pack (c := .w8) rfl fun _ => rfl,
    fun _ => writesBits_of_pack (c := .w16) rfl fun _ => rfl,
    fun _ => writesBits_of_pack (c := .w32) rfl fun _ => rfl,
    fun _ => writesBits_of_pack (c := .w64) rfl fun _ => rfl,
    fun _ => writesBits_of_pack (c := .w128) rfl fun _ => rfl⟩

/-- The row WRITE.U<W> of a carrier checks and packs the value itself, where that has W bits (R63, R111). -/
theorem fits_plan_writeInstr {c : Carrier} {v : BitVec 128} (n : Count) (s : State) (hv : v.toNat < 2 ^ c.width) :
    fits (writeInstr c n v) = fitsUnsigned c n.toNat v.toNat ∧
      plan s (writeInstr c n v) = planOf (pack s.order c n.toNat v.toNat s.part) := by
  cases c <;> simp_all [writeInstr, fits, plan, Nat.mod_eq_of_lt]

/-- Settles O28: with nothing pending, the bits of the value are those of its bytes, and they are the stream. -/
theorem alignedWriteEmitsBytesOfValue : Obligations.AlignedWriteEmitsBytesOfValue := by
  intro c n v k s hk hn hv hs hplen hok
  have hvc : v.toNat < 2 ^ c.width := hv.trans_le (Nat.pow_le_pow_right (by omega) hn)
  obtain ⟨t, ht, hstream⟩ := writesBits_of_pack (fits_plan_writeInstr n s hvc).1
    (fun u => (fits_plan_writeInstr n u hvc).2) hn hv s hs (by simpa [hplen, hk] using hok)
  have hempty : s.pending = [] := queue_of_len_zero s.order (by simp [hplen])
  obtain ⟨hdone, hplen', hpval'⟩ := hstream.eq_of_bits (Nat.zero_le 7) Nat.one_pos
    (by beta_reduce; rw [hempty, hk, seq_whole_bytes, seq_zero, List.nil_append, List.append_nil])
  refine ⟨t, ht, BitVec.eq_of_toNat_eq hplen', BitVec.eq_of_toNat_eq hpval', fun ho => ?_, fun ho => ?_⟩
  · simpa only [ho, bitIndex_msb] using hdone
  · simpa only [ho, bitIndex_lsb] using hdone

/-! WRITE_BYTES. -/

theorem aligned_iff (s : State) : s.aligned = true ↔ s.plen = 0 := by
  simp [State.aligned, Acc.isEmpty, ← BitVec.toNat_inj]

/-- Settles O34: the aligned plan presents the buffer and leaves P as it is. -/
theorem alignedBytesGoInOneTransaction : Obligations.AlignedBytesGoInOneTransaction := by
  intro buf s hs hplen hok
  have hplan : plan s (.writeBytes buf) = some ⟨wholeBuffer buf, s.part, 0⟩ := by
    simp [plan, (aligned_iff s).mpr hplen]
  have hdone : Completed s (s.complete (wholeBuffer buf) s.part 0) (if buf = [] then [] else [buf]) 0 := by
    cases buf with
    | nil => exact completed_complete (ts := []) hs (fun j hj => absurd hj (Nat.not_lt_zero j)) _ _
    | cons b rest => exact completed_complete (ts := [b :: rest]) hs (hok (List.cons_ne_nil b rest)) _ _
  obtain ⟨hplen', hpval'⟩ := complete_registers hdone.failed
  exact ⟨_, exec_of_plan hs rfl hplan, by simpa using hplen', by simpa using hpval', hdone⟩

/-- A byte behind `l` pending bits under MSB_FIRST: its high part completes the byte to emit, its low part is
pending (R136). -/
theorem seq_msb_append_byte {l x b : Nat} (hl : l ≤ 8) (hb : b < 2 ^ 8) :
    seq .msbFirst l x ++ seq .msbFirst 8 b =
      seq .msbFirst 8 (x * 2 ^ (8 - l) + b / 2 ^ l) ++ seq .msbFirst l (b % 2 ^ l) := by
  have hhigh : b / 2 ^ l < 2 ^ (8 - l) := by
    simpa [Nat.sub_sub_self hl] using div_pow_lt (n := 8 - l) (Nat.sub_le 8 l) hb
  have hbyte := seq_msb_append (8 - l) (x := b / 2 ^ l) (Nat.mod_lt b (Nat.two_pow_pos l))
  have hemit := seq_msb_append l (x := x) hhigh
  rw [Nat.sub_add_cancel hl, Nat.div_add_mod'] at hbyte
  rw [Nat.add_sub_cancel' hl] at hemit
  rw [hbyte, hemit, List.append_assoc]

/-- A byte behind `l` pending bits under LSB_FIRST: its low part completes the byte to emit, its high part is
pending (R136). -/
theorem seq_lsb_append_byte {l x b : Nat} (hl : l ≤ 8) (hx : x < 2 ^ l) :
    seq .lsbFirst l x ++ seq .lsbFirst 8 b =
      seq .lsbFirst 8 (x + b % 2 ^ (8 - l) * 2 ^ l) ++ seq .lsbFirst l (b / 2 ^ (8 - l)) := by
  have hbyte := seq_lsb_append l (b / 2 ^ (8 - l)) (Nat.mod_lt b (Nat.two_pow_pos (8 - l)))
  have hemit := seq_lsb_append (8 - l) (b % 2 ^ (8 - l)) hx
  rw [Nat.sub_add_cancel hl, Nat.mod_add_div'] at hbyte
  rw [Nat.add_sub_cancel' hl] at hemit
  rw [hbyte, hemit, List.append_assoc]

/-- For a single byte: where its bits come apart at the byte boundary, so do the byte emitted and what is pending. -/
theorem Streamed.eq_of_byte {s t : State} {b : Byte} {x r : Nat} (h : Streamed s t (bytesBits s.order [b]))
    (hlen : s.plen.toNat ≤ 7) (hr : r < 2 ^ s.plen.toNat)
    (hbits : seq s.order s.plen.toNat s.pval.toNat ++ seq s.order 8 b.toNat =
      seq s.order 8 x ++ seq s.order s.plen.toNat r) :
    Completed s t [[byteOf x]] 0 ∧ t.pval.toNat = r := by
  obtain ⟨hdone, -, hpval⟩ := h.eq_of_bits (bytes := [byteOf x]) hlen hr (by simpa [pending_eq] using hbits)
  exact ⟨hdone, hpval⟩

/-- Settles O35: the unaligned path adds the bits of the bytes; for one byte these come apart at the byte boundary
as the closed form says. -/
theorem unalignedBytesArePackedOneByOne : Obligations.UnalignedBytesArePackedOneByOne := by
  intro buf s hs hplen hok
  obtain ⟨-, hlen, hclean⟩ := id hs
  have hplan : plan s (.writeBytes buf) = planOf (bytesPath s.order buf s.part) := by
    simp [plan, (aligned_iff s).not.mpr hplen]
  have hcount : (s.plen.toNat + (bytesBits s.order buf).length) / 8 = buf.length := by rw [bytesBits_length]; omega
  obtain ⟨t, ht, hstream⟩ :=
    exec_streams hs rfl hplan (bytesPath_adds s.order buf hs.boundary) (hcount.symm ▸ hok)
  have hplen' : t.plen = s.plen := BitVec.eq_of_toNat_eq (by rw [hstream.plen, bytesBits_length]; omega)
  refine ⟨t, ht, hstream, hplen', ?_, fun b hbuf ho => ?_, fun b hbuf ho => ?_⟩
  · obtain ⟨bytes, hdone, -, hbytes⟩ := hstream.step
    rw [hdone.txns, List.length_append, List.length_map, singles, List.length_map, hbytes, hcount]
  · subst hbuf
    exact hstream.eq_of_byte hlen (Nat.mod_lt _ (Nat.two_pow_pos _))
      (by rw [ho]; exact seq_msb_append_byte (by omega) b.isLt)
  · subst hbuf
    have hhigh : b.toNat / 2 ^ (8 - s.plen.toNat) < 2 ^ s.plen.toNat := div_pow_lt (by omega) b.isLt
    exact hstream.eq_of_byte hlen hhigh (by rw [ho]; exact seq_lsb_append_byte (by omega) hclean)

end Sys2Proof.Machine
end

section
/-! The stream law of a call sequence (R48, R49, R56, R114, R137): every command adds its bits, so a run adds the
bits of its calls in order. -/

namespace Sys2Proof.Machine

/-! One command. -/

/-- The plan adds these bits to the stream and leaves P at a command boundary. -/
def PlanAdds (o : Order) (q : Option Plan) (p : Acc) (bits : List Bool) : Prop :=
  ∃ q', q = some q' ∧ q'.part.Boundary ∧ bytesBits o q'.txns.flatten ++ q'.part.queue o = p.queue o ++ bits

theorem Adds.planOf {o : Order} {e : Option Emission} {p : Acc} {bits : List Bool} (h : Adds o e p bits) :
    PlanAdds o (planOf e) p bits := by
  obtain ⟨e', rfl, hb, hbits⟩ := h
  have hflat : (e'.bytes.map fun b => [b]).flatten = e'.bytes := by rw [← List.flatMap_def, List.flatMap_singleton']
  exact ⟨_, rfl, hb, hflat.symm ▸ hbits⟩

/-- A command without a transaction that leaves P as it is adds nothing. -/
theorem PlanAdds.nothing (o : Order) {p : Acc} (hp : p.Boundary) (rdata : BitVec 12) :
    PlanAdds o (some ⟨[], p, rdata⟩) p [] :=
  ⟨_, rfl, hp, by simp⟩

theorem unsigned_adds (o : Order) {c : Carrier} {bits value : Nat} {p : Acc} (hp : p.Boundary)
    (hv : value < 2 ^ c.width) (hf : fitsUnsigned c bits value = true) :
    PlanAdds o (planOf (pack o c bits value p)) p (seq o bits value) :=
  have ⟨hbits, hvalue⟩ := (fitsUnsigned_iff hv).mp hf
  (pack_adds o hp hbits hvalue).planOf

theorem signed_adds (o : Order) {c : Carrier} {bits : Nat} {value : Int} {p : Acc} (hp : p.Boundary)
    (hf : fitsSigned c bits value = true) :
    PlanAdds o (planOf (pack o c bits (packSigned bits value) p)) p (seq o bits (packSigned bits value)) :=
  (pack_adds o hp (fitsSigned_le hf) (packSigned_lt bits value)).planOf

/-- Every command but DISPOSE that passes its validation plans to add its bits to a stream of `total` bits (R48,
R51, R126, R145, R148, R161). -/
theorem plan_adds {s : State} (hp : s.part.Boundary) {total : Nat} (htotal : s.plen.toNat = total % 8) {i : Instr}
    (hf : fits i = true) (hd : i ≠ .dispose) : PlanAdds s.order (plan s i) s.part (opBits s.order total i) := by
  cases i with
  | writeBit b => exact (writeBitPath_adds s.order b hp).planOf
  | writeU8 n v => exact unsigned_adds s.order hp v.isLt hf
  | writeU16 n v => exact unsigned_adds s.order hp v.isLt hf
  | writeU32 n v => exact unsigned_adds s.order hp v.isLt hf
  | writeU64 n v => exact unsigned_adds s.order hp v.isLt hf
  | writeU128 n v => exact unsigned_adds s.order hp v.isLt hf
  | writeI8 n v => exact signed_adds s.order hp hf
  | writeI16 n v => exact signed_adds s.order hp hf
  | writeI32 n v => exact signed_adds s.order hp hf
  | writeI64 n v => exact signed_adds s.order hp hf
  | writeI128 n v => exact signed_adds s.order hp hf
  | writeBytes buf =>
    by_cases h : s.aligned = true
    · have hempty : s.part.queue s.order = [] := queue_of_len_zero _ (by simp [(aligned_iff s).mp h])
      have hflat : (wholeBuffer buf).flatten = buf := by cases buf <;> simp [wholeBuffer]
      exact ⟨⟨wholeBuffer buf, s.part, 0⟩, by simp only [plan, h, if_true], hp, by simp [hflat, hempty, opBits]⟩
    · simpa [plan, h, opBits] using (bytesPath_adds s.order buf hp).planOf
  | writeUnary0 n => exact (unaryPath_adds s.order true n.toNat hp).planOf
  | writeUnary1 n => exact (unaryPath_adds s.order false n.toNat hp).planOf
  | byteAligned => exact PlanAdds.nothing s.order hp _
  | byteAlign =>
    have h := (alignLoop_adds s.order 8 hp (by omega)).planOf
    rwa [part_len, htotal] at h
  | unwritten => exact PlanAdds.nothing s.order hp _
  | dispose => exact absurd rfl hd

/-- If no transaction failed, the sink log has grown by the bytes of the plan (R42). -/
theorem complete_log {s : State} {ts : List (List Byte)} {p : Acc} {rdata : BitVec 12}
    (h : (s.complete ts p rdata).failed = false) : (s.complete ts p rdata).log = s.log ++ ts.flatten := by
  simp [State.log, Sink.log, complete_txns_of_not_failed h, List.flatMap_map]

/-- FAILED is sticky (R25, R208). -/
theorem exec_failed {i : Instr} {s t : State} (h : exec i s = .next t) (hs : s.failed = true) : t.failed = true :=
  have ⟨_, _, _, hrefused, _⟩ := frameOfEveryCommand i s t h
  (hrefused hs).1

/-- The bits a call adds to a stream of `total` bits, none if it is rejected (R19, R206). -/
def callBits (o : Order) (total : Nat) (i : Instr) : List Bool := if fits i then opBits o total i else []

theorem streamOfCalls_cons (o : Order) (total : Nat) (i : Instr) (rest : List Instr) :
    streamOfCalls o total (i :: rest) =
      callBits o total i ++ streamOfCalls o (total + (callBits o total i).length) rest := rfl

/-- A command in which no transaction fails adds the bits of the call to a stream of `total` bits. -/
theorem exec_stream {i : Instr} {s t : State} {total : Nat} (h : exec i s = .next t) (ht : t.failed = false)
    (hs : s.Inv) (htotal : s.plen.toNat = total % 8) (hd : i ≠ .dispose) :
    ∃ bytes, t.log = s.log ++ bytes ∧
      bytesBits s.order bytes ++ t.pending = s.pending ++ callBits s.order total i := by
  obtain ⟨hsf, -⟩ | ⟨-, hf, rfl⟩ | ⟨hsf, hf, q, hq, rfl⟩ := exec_cases h
  · exact absurd ht (by simp [exec_failed h hsf])
  · exact ⟨[], (List.append_nil _).symm, by simp [callBits, hf, State.pending, State.part]⟩
  · obtain ⟨q', hq', hb, hbits⟩ := plan_adds (part_boundary_of_inv hs hsf) htotal hf hd
    obtain rfl := Option.some.inj (hq'.symm.trans hq)
    exact ⟨q'.txns.flatten, complete_log ht, by rw [complete_pending hb ht, hbits, callBits, if_pos hf]; rfl⟩

/-! A call sequence. -/

theorem runAll_cons {i : Instr} {rest : List Instr} {s t : State} (h : runAll (i :: rest) s = .next t) :
    ∃ u, exec i s = .next u ∧ runAll rest u = .next t := by
  cases hu : exec i s with
  | next u => exact ⟨u, rfl, by simpa [runAll, hu] using h⟩
  | fault r => simp [runAll, hu] at h
  | refused r => simp [runAll, hu] at h

/-- What every command keeps, a call sequence keeps. -/
theorem runAll_keeps {P : State → Prop} (hstep : ∀ i s t, P s → exec i s = .next t → P t) {is : List Instr}
    {s t : State} (hs : P s) (h : runAll is s = .next t) : P t := by
  induction is generalizing s with
  | nil => exact Host.Outcome.next.inj h ▸ hs
  | cons i rest ih =>
    obtain ⟨u, hu, hrest⟩ := runAll_cons h
    exact ih (hstep i s u hs hu) hrest

theorem runAll_order {is : List Instr} {s t : State} (h : runAll is s = .next t) : t.order = s.order :=
  runAll_keeps (P := fun u => u.order = s.order)
    (fun i u v hu hv => (frameOfEveryCommand i u v hv).1.trans hu) rfl h

theorem runAll_keeps_inv {is : List Instr} {s t : State} (hs : s.Inv) (h : runAll is s = .next t) : t.Inv :=
  runAll_keeps (P := State.Inv) (fun _ _ _ => exec_keeps_inv) hs h

/-- A call sequence that ends with FAILED = 0 began with it (R25). -/
theorem not_failed_of_runAll {is : List Instr} {s t : State} (h : runAll is s = .next t) (ht : t.failed = false) :
    s.failed = false := by
  by_contra hs
  rw [Bool.not_eq_false] at hs
  have := runAll_keeps (P := fun u => u.failed = true) (fun _ _ _ hu hv => exec_failed hv hu) hs h
  simp [this] at ht

/-- The stream law: a call sequence without DISPOSE in which no transaction fails adds the bits of its calls to a
stream of `total` bits (R49, R56, R114). -/
theorem runAll_stream {is : List Instr} {s t : State} {total : Nat} (h : runAll is s = .next t)
    (ht : t.failed = false) (hs : s.Inv) (htotal : s.plen.toNat = total % 8) (hd : Instr.dispose ∉ is) :
    ∃ bytes, t.log = s.log ++ bytes ∧
      bytesBits s.order bytes ++ t.pending = s.pending ++ streamOfCalls s.order total is := by
  induction is generalizing s total with
  | nil =>
    obtain rfl := Host.Outcome.next.inj h
    exact ⟨[], by simp, by simp [streamOfCalls]⟩
  | cons i rest ih =>
    obtain ⟨hi, hrest⟩ := not_or.mp (List.mem_cons.not.mp hd)
    obtain ⟨u, hu, hrun⟩ := runAll_cons h
    have huf := not_failed_of_runAll hrun ht
    have huinv := exec_keeps_inv hs hu
    have huorder : u.order = s.order := (frameOfEveryCommand i s u hu).1
    obtain ⟨first, hlog1, hbits1⟩ := exec_stream hu huf hs htotal (Ne.symm hi)
    have hplen : u.plen.toNat = (total + (callBits s.order total i).length) % 8 := by
      have hlen := congrArg List.length hbits1
      have := (huinv huf).1
      simp only [List.length_append, bytesBits_length, pending_length] at hlen
      omega
    obtain ⟨later, hlog2, hbits2⟩ := ih hrun huinv hplen hrest
    rw [huorder] at hbits2
    refine ⟨first ++ later, by rw [hlog2, hlog1, List.append_assoc], ?_⟩
    rw [bytesBits_append, List.append_assoc, hbits2, ← List.append_assoc, hbits1, streamOfCalls_cons,
      List.append_assoc]

/-- A writer's life begins with nothing pending and meets the invariant (R227). -/
theorem State.NewLife.empty {s : State} {o : Order} (hs : s.NewLife o) :
    s.Inv ∧ s.pending = [] ∧ s.plen.toNat = 0 := by
  obtain ⟨-, hplen, hpval, -⟩ := hs
  exact ⟨fun _ => by simp [hplen, hpval], queue_of_len_zero _ (by simp [hplen]), by simp [hplen]⟩

/-- Settles O53: the stream law from a state with nothing pending; fewer than eight bits are left pending. -/
theorem streamIsTheCallsInOrder : Obligations.StreamIsTheCallsInOrder := by
  intro o is s t hs hd h ht
  obtain ⟨hinv, hempty, hzero⟩ := hs.empty
  obtain ⟨bytes, hlog, hbits⟩ := runAll_stream (total := 0) h ht hinv hzero hd
  rw [hempty, List.nil_append, hs.1] at hbits
  refine ⟨bytes, hlog, hbits, ?_⟩
  have hlen := congrArg List.length hbits
  have := (runAll_keeps_inv hinv h ht).1
  simp only [List.length_append, bytesBits_length, pending_length] at hlen
  omega

/-- Settles O54: the emitted bytes are those of the stream law, and a bit of them stands in its byte. -/
theorem streamBitsStandInTheirBytes : Obligations.StreamBitsStandInTheirBytes := by
  intro o is s t bytes hs hd h ht hlog k b hb
  obtain ⟨emitted, hlog', hbits, -⟩ := streamIsTheCallsInOrder o is s t hs hd h ht
  obtain rfl : emitted = bytes := List.append_cancel_left (hlog'.symm.trans hlog)
  have hbit := bytesBits_getElem? o hb
  rw [← hbits, List.getElem?_append_left (List.getElem?_eq_some_iff.mp hbit).1, hbit]
  cases o <;> rfl

/-! WRITE_BYTES as WRITE.U8 8 of each byte. -/

theorem streamOfCalls_writeU8 (o : Order) (total : Nat) (buf : List Byte) :
    streamOfCalls o total (buf.map fun b => .writeU8 8 b) = bytesBits o buf := by
  induction buf generalizing total with
  | nil => rfl
  | cons b rest ih =>
    have hb : fits (.writeU8 8 b) = true := (fitsUnsigned_iff b.isLt).mpr ⟨le_rfl, b.isLt⟩
    rw [List.map_cons, streamOfCalls_cons, ih, callBits, if_pos hb]
    rfl

/-- What is pending under one ORDER determines PLEN and PVAL. -/
theorem registers_eq_of_pending {s t : State} (hs : s.pval.toNat < 2 ^ s.plen.toNat)
    (ht : t.pval.toNat < 2 ^ t.plen.toNat) (ho : s.order = t.order) (h : s.pending = t.pending) :
    s.plen = t.plen ∧ s.pval = t.pval := by
  have hlen : s.plen.toNat = t.plen.toNat := by simpa [pending_length] using congrArg List.length h
  rw [pending_eq, pending_eq, ho, hlen] at h
  exact ⟨BitVec.eq_of_toNat_eq hlen, BitVec.eq_of_toNat_eq (seq_injective (hlen ▸ hs) ht h)⟩

/-- Two call sequences that start in one state and write the same stream end alike, if no transaction fails. -/
theorem runAll_eq_of_stream {is js : List Instr} {s t u : State} (hs : s.Ready) (hi : Instr.dispose ∉ is)
    (hj : Instr.dispose ∉ js)
    (hstream : streamOfCalls s.order s.plen.toNat is = streamOfCalls s.order s.plen.toNat js)
    (ht : runAll is s = .next t) (htf : t.failed = false) (hu : runAll js s = .next u) (huf : u.failed = false) :
    t.log = u.log ∧ t.plen = u.plen ∧ t.pval = u.pval := by
  have hinv : s.Inv := fun _ => hs.2
  have htotal : s.plen.toNat = s.plen.toNat % 8 := by have := hs.2.1; omega
  obtain ⟨tlen, tval⟩ := runAll_keeps_inv hinv ht htf
  obtain ⟨ulen, uval⟩ := runAll_keeps_inv hinv hu huf
  obtain ⟨tbytes, tlog, tbits⟩ := runAll_stream ht htf hinv htotal hi
  obtain ⟨ubytes, ulog, ubits⟩ := runAll_stream hu huf hinv htotal hj
  obtain ⟨rfl, hpending⟩ := bytesBits_append_inj ((pending_length t).trans_le tlen)
    ((pending_length u).trans_le ulen) ((tbits.trans (congrArg (s.pending ++ ·) hstream)).trans ubits.symm)
  exact ⟨tlog.trans ulog.symm,
    registers_eq_of_pending tval uval ((runAll_order ht).trans (runAll_order hu).symm) hpending⟩

/-- Settles O36: both write the bits of the buffer's bytes. -/
theorem bytesEqualPerByteWrites : Obligations.BytesEqualPerByteWrites := by
  intro buf s t u hs ht htf hu huf
  have hrun : runAll [.writeBytes buf] s = .next t := by simp [runAll, ht]
  have hbits : streamOfCalls s.order s.plen.toNat [.writeBytes buf] = bytesBits s.order buf := List.append_nil _
  exact runAll_eq_of_stream hs (by simp) (by simp) (hbits.trans (streamOfCalls_writeU8 ..).symm) hrun htf hu huf

end Sys2Proof.Machine
end

section
/-! Decoder and encoder (R60 to R68): when each kind of operand is legal and when it is reserved, said once; the round
trip in both directions and the list of reserved encodings follow operation code by operation code. -/

namespace Sys2Proof

/-! The kinds of operands. -/

/-- A check that makes a word the command `i` or reserves it reads `i` exactly where it passes (R68). -/
theorem checked_legal_iff {P : Prop} [Decidable P] {i j : Instr} {r : Rejected} :
    (if P then Decoded.legal i else .reserved r) = .legal j ↔ P ∧ j = i := by
  split <;> simp [*, eq_comm]

theorem checked_reserved_iff {P : Prop} [Decidable P] {i : Instr} {r : Rejected} :
    (∃ r', (if P then Decoded.legal i else .reserved r) = .reserved r') ↔ ¬P := by
  split <;> simp [*]

/-- WTAG names a carrier exactly by that carrier's code (R63). -/
theorem carrierOf_eq_some {g : BitVec 3} {c : Carrier} : carrierOf g = some c ↔ g = wtagOf c := by
  revert g; cases c <;> decide

@[simp] theorem carrierOf_wtagOf (c : Carrier) : carrierOf (wtagOf c) = some c := carrierOf_eq_some.mpr rfl

/-- The codes 5 to 7 name none (R63). -/
theorem carrierOf_eq_none {g : BitVec 3} : carrierOf g = none ↔ 5 ≤ g.toNat := by
  revert g; decide

/-- The carrier with code `t` has W = 8 · 2^t bits (R63). -/
theorem width_eq_of_wtagOf (c : Carrier) : c.width = 8 * 2 ^ (wtagOf c).toNat := by
  cases c <;> rfl

/-- A sized operand is legal exactly if WTAG names a carrier that holds VALUE (R63, R65). -/
theorem decodeSized_legal_iff {make : Carrier → Count → BitVec 128 → Instr} {f : Fields} {i : Instr} :
    decodeSized make f = .legal i ↔
      ∃ c, f.wtag = wtagOf c ∧ f.value.toNat < 2 ^ c.width ∧ i = make c f.n f.value := by
  unfold decodeSized
  cases hc : carrierOf f.wtag with
  | none => simp [← carrierOf_eq_some, hc]
  | some c => simp [← carrierOf_eq_some, hc, checked_legal_iff]

theorem decodeSized_reserved_iff {make : Carrier → Count → BitVec 128 → Instr} {f : Fields} :
    (∃ r, decodeSized make f = .reserved r) ↔
      5 ≤ f.wtag.toNat ∨ 2 ^ (8 * 2 ^ f.wtag.toNat) ≤ f.value.toNat := by
  unfold decodeSized
  rw [← carrierOf_eq_none]
  cases hc : carrierOf f.wtag with
  | none => simp
  | some c => simp [checked_reserved_iff, carrierOf_eq_some.mp hc, ← width_eq_of_wtagOf]

/-! What the encoder writes. -/

/-- A command is well formed exactly if its payload's length is a count (R60, R66). -/
theorem wf_iff {i : Instr} : i.wf = true ↔ (payloadOf i).length < 2 ^ 32 := by
  cases i <;> simp [Instr.wf, payloadOf]

/-- A well-formed command's word calls for the payload that the encoder writes (R66). -/
theorem payloadCount_encodeWord {i : Instr} (h : i.wf = true) :
    payloadCount (encodeWord i) = (payloadOf i).length := by
  rw [wf_iff] at h
  cases i with
  | writeBytes buf => simpa [payloadCount, fieldsFor, opOf, payloadOf] using h
  | _ => simp [payloadCount, fieldsFor, opOf, payloadOf]

/-- A value of k bits, zero from bit k up, is read back from its low k bits (R65). -/
theorem setWidth_container {v : BitVec 128} {k : Nat} (hv : v.toNat < 2 ^ k) : (v.setWidth k).setWidth 128 = v :=
  BitVec.eq_of_toNat_eq (by simp [Nat.mod_eq_of_lt, hv, v.isLt])

theorem toNat_container_lt {k : Nat} (v : BitVec k) : (v.setWidth 128).toNat < 2 ^ k := by
  rw [BitVec.toNat_setWidth]
  exact (Nat.mod_le _ _).trans_lt v.isLt

/-- The row WRITE.U<W> of a carrier encodes to its code and VALUE itself, where that has W bits (R63, R65). -/
theorem fieldsFor_writeInstr {c : Carrier} (n : Count) {v : BitVec 128} (hv : v.toNat < 2 ^ c.width) :
    fieldsFor (writeInstr c n v) = ⟨0x1, wtagOf c, 0, n, v⟩ := by
  have hfit := setWidth_container hv
  cases c <;> simp_all [writeInstr, fieldsFor, opOf]

theorem fieldsFor_writeSignedInstr {c : Carrier} (n : Count) {v : BitVec 128} (hv : v.toNat < 2 ^ c.width) :
    fieldsFor (writeSignedInstr c n v) = ⟨0x2, wtagOf c, 0, n, v⟩ := by
  have hfit := setWidth_container hv
  cases c <;> simp_all [writeSignedInstr, fieldsFor, opOf]

@[simp] theorem payloadOf_writeInstr (c : Carrier) (n : Count) (v : BitVec 128) :
    payloadOf (writeInstr c n v) = [] := by
  cases c <;> rfl

@[simp] theorem payloadOf_writeSignedInstr (c : Carrier) (n : Count) (v : BitVec 128) :
    payloadOf (writeSignedInstr c n v) = [] := by
  cases c <;> rfl

/-! The decoder on what the encoder writes. -/

/-- The decoder reads the command from what the encoder writes for it. -/
def ReadsBack (i : Instr) : Prop := decodeFields (fieldsFor i) (payloadOf i) = .legal i

theorem readsBack_writeInstr {c : Carrier} (n : Count) {v : BitVec 128} (hv : v.toNat < 2 ^ c.width) :
    ReadsBack (writeInstr c n v) := by
  rw [ReadsBack, fieldsFor_writeInstr n hv]
  exact decodeSized_legal_iff.mpr ⟨c, rfl, hv, rfl⟩

theorem readsBack_writeSignedInstr {c : Carrier} (n : Count) {v : BitVec 128} (hv : v.toNat < 2 ^ c.width) :
    ReadsBack (writeSignedInstr c n v) := by
  rw [ReadsBack, fieldsFor_writeSignedInstr n hv]
  exact decodeSized_legal_iff.mpr ⟨c, rfl, hv, rfl⟩

/-- A sized command reads back because it is its carrier's row for the container of its operand. -/
theorem readsBack (i : Instr) : ReadsBack i := by
  cases i with
  | writeU8 n v => simpa [writeInstr] using readsBack_writeInstr (c := .w8) n (toNat_container_lt v)
  | writeU16 n v => simpa [writeInstr] using readsBack_writeInstr (c := .w16) n (toNat_container_lt v)
  | writeU32 n v => simpa [writeInstr] using readsBack_writeInstr (c := .w32) n (toNat_container_lt v)
  | writeU64 n v => simpa [writeInstr] using readsBack_writeInstr (c := .w64) n (toNat_container_lt v)
  | writeU128 n v => exact readsBack_writeInstr (c := .w128) n v.isLt
  | writeI8 n v => simpa [writeSignedInstr] using readsBack_writeSignedInstr (c := .w8) n (toNat_container_lt v)
  | writeI16 n v => simpa [writeSignedInstr] using readsBack_writeSignedInstr (c := .w16) n (toNat_container_lt v)
  | writeI32 n v => simpa [writeSignedInstr] using readsBack_writeSignedInstr (c := .w32) n (toNat_container_lt v)
  | writeI64 n v => simpa [writeSignedInstr] using readsBack_writeSignedInstr (c := .w64) n (toNat_container_lt v)
  | writeI128 n v => exact readsBack_writeSignedInstr (c := .w128) n v.isLt
  | writeBit b => cases b <;> rfl
  | writeBytes _ | writeUnary0 _ | writeUnary1 _ | byteAligned | byteAlign | unwritten | dispose => rfl

/-- Settles O1: the word calls for the encoder's payload and has the fields the encoder gave it, and from these the
command reads back. -/
theorem decodeReadsEncodedCommand : Obligations.DecodeReadsEncodedCommand := by
  intro i hi
  rw [decode, if_pos (payloadCount_encodeWord hi).symm, fieldsOf_encodeWord, readsBack]

/-! What the decoder reads. -/

/-- A value below 2 is its bit 0 (R65). -/
theorem setWidth_ofBool_getLsbD {v : BitVec 128} (hv : v.toNat < 2) :
    (BitVec.ofBool (v.getLsbD 0)).setWidth 128 = v := by
  have hbit : v.setWidth 1 = BitVec.ofBool (v.getLsbD 0) := by ext i hi; simp [show i = 0 by omega]
  rw [← hbit, setWidth_container (k := 1) hv]

/-- Whatever the decoder reads has the fields and the payload it was read from: each check of an operation fixes the
fields that its operands do not (R62 to R67). -/
theorem fieldsFor_of_decodeFields {f : Fields} {payload : List Byte} {i : Instr}
    (hlen : payload.length = if f.op = 0x3 then f.n.toNat else 0) (h : decodeFields f payload = .legal i) :
    fieldsFor i = f ∧ payloadOf i = payload := by
  obtain ⟨op, wtag, rsv, n, value⟩ := f
  unfold decodeFields at h
  split at h
  · simp at h
  split at h
  case h_1 hop =>
    obtain ⟨⟨hw, hn, hv⟩, rfl⟩ := checked_legal_iff.mp h
    have hbit := setWidth_ofBool_getLsbD hv
    simp_all [fieldsFor, opOf, payloadOf]
  case h_2 =>
    obtain ⟨c, rfl, hv, rfl⟩ := decodeSized_legal_iff.mp h
    simp_all [fieldsFor_writeInstr]
  case h_3 =>
    obtain ⟨c, rfl, hv, rfl⟩ := decodeSized_legal_iff.mp h
    simp_all [fieldsFor_writeSignedInstr]
  case h_4 | h_5 | h_6 | h_7 | h_8 | h_9 | h_10 =>
    obtain ⟨⟨hw, hv⟩, rfl⟩ := checked_legal_iff.mp h
    simp_all [fieldsFor, opOf, payloadOf]
  case h_11 => simp at h

/-- The decoder reserves exactly the listed fields, operation code by operation code (R68). -/
theorem decodeFields_reserved_iff {f : Fields} {payload : List Byte} :
    (∃ r, decodeFields f payload = .reserved r) ↔ Machine.ReservedFields f := by
  unfold decodeFields Machine.ReservedFields
  split
  case isTrue h =>
    have hrsv : f.rsv = 1 := by bv_omega
    simp [hrsv]
  case isFalse h =>
    have hrsv : f.rsv ≠ 1#1 := by bv_omega
    split
    case h_1 hop => simp [decodeBit, checked_reserved_iff, hop, hrsv, imp_iff_not_or, Nat.succ_le_iff]
    case h_2 hop | h_3 hop => simp [decodeSized_reserved_iff, hop, hrsv]
    case h_4 hop | h_5 hop | h_6 hop => simp [decodeCounted, checked_reserved_iff, hop, hrsv, imp_iff_not_or]
    case h_7 hop | h_8 hop | h_9 hop | h_10 hop => simp [decodeBare, checked_reserved_iff, hop, hrsv, imp_iff_not_or]
    case h_11 =>
      have hop : 10 ≤ f.op.toNat := by simp only [imp_false] at *; bv_omega
      simp [hop]

theorem payloadCount_lt (w : CmdWord) : payloadCount w < 2 ^ 32 := by
  unfold payloadCount
  split
  · exact (fieldsOf w).n.isLt
  · exact Nat.two_pow_pos 32

/-- Settles O2: the fields of the word are those of the command read, and a word is assembled from its fields. -/
theorem legalRecordHasOneEncoding : Obligations.LegalRecordHasOneEncoding := by
  intro w payload i h
  have hlen := Machine.payload_length_of_legal h
  rw [decode, if_pos hlen] at h
  obtain ⟨hfields, hpayload⟩ := fieldsFor_of_decodeFields hlen h
  refine ⟨wf_iff.mpr ?_, ?_⟩
  · rw [hpayload, hlen]
    exact payloadCount_lt w
  · rw [encode, encodeWord, hfields, assemble_fieldsOf, hpayload]

/-- Settles O3: with its payload a word is rejected for its fields only, and the list says for which. -/
theorem reservedEncodingsAreTheListed : Obligations.ReservedEncodingsAreTheListed := by
  intro w payload hlen
  rw [decode, if_pos hlen, decodeFields_reserved_iff]

/-- Settles O4: the decoder is run on each of the seven words. -/
theorem workedEncodingsDecode : Obligations.WorkedEncodingsDecode :=
  ⟨by decide, by decide, by decide, by decide, by decide, by decide, by decide⟩

end Sys2Proof
end

section
/-! Every command word is answered once (R60 to R71): the step takes the word with its payload, and the response says
what became of it. -/

namespace Sys2Proof.Machine

/-! The step on a command word. -/

/-- Settles O5: the step takes the word with its payload, and a legal word runs its command. -/
theorem stepRunsDecodedCommand : Obligations.StepRunsDecodedCommand := by
  intro s w payload rest i hs hi
  rw [step_command hs (payload_length_of_legal hi), runWord, hi]

/-- A reserved encoding with its payload is rejected (R68). -/
theorem runWord_of_reserved {w : CmdWord} {payload : List Byte} (hlen : payload.length = payloadCount w)
    (h : ReservedFields (fieldsOf w)) (s : State) : runWord w payload s = .next s.rejectReserved := by
  obtain ⟨r, hr⟩ := (reservedEncodingsAreTheListed w payload hlen).mpr h
  rw [runWord, hr]

/-- Settles O6: with FAILED = 0 the rejection is INVALID_INPUT. -/
theorem stepRejectsReservedEncoding : Obligations.StepRejectsReservedEncoding := by
  intro s w payload rest hf hs hlen hres
  rw [step_command hs hlen, runWord_of_reserved hlen hres]
  simp [State.rejectReserved, hf, State.respond]

/-- A command word where a payload byte is due breaks the delivery (R66). -/
theorem fetch_beats_broken {w : CmdWord} {arrived : List Byte} (h : arrived.length < payloadCount w) (w' : CmdWord)
    (rest : List Input) : fetch (beatsOf w arrived ++ .word w' :: rest) = .broken := by
  simp [beatsOf, fetch, gather_broken h]

/-- Settles O12: a stray byte and a broken delivery are fetched as such, and without inputs the block is idle. -/
theorem brokenDeliveryStops : Obligations.BrokenDeliveryStops := by
  refine ⟨fun s b rest hs => ?_, fun s w w' arrived rest hs h => ?_, fun s hs => ?_⟩
  · rw [step_plain (by simp [hs])]
    simp [stepPlain, hs, fetch]
  · rw [step_plain (by simp [hs, beatsOf])]
    simp [stepPlain, hs, fetch_beats_broken h]
  · rw [step_plain (by simp [hs])]
    simp [stepPlain, hs, fetch]

/-! The response. -/

/-- A command answered with `r` that made the transactions `new` (R70): RDATA comes with OK only, and ERRINFO is the
information of the transaction that failed, if one did. -/
structure Answered (s t : State) (r : Response) (new : List Txn) : Prop where
  rsps    : t.rsps = s.rsps ++ [r]
  txns    : t.sink.txns = s.sink.txns ++ new
  rdata   : r.status ≠ .ok → r.rdata = 0
  failing : ∀ bytes e k, .failed bytes e k ∈ new → r.status = .sinkFailure ∧ r.errinfo = e
  noInfo  : (∀ bytes e k, .failed bytes e k ∉ new) → r.errinfo = 0

/-- A bare response without RDATA and information. -/
theorem answered_respond (s : State) (status : Status) :
    Answered s (s.respond ⟨status, 0, 0⟩) ⟨status, 0, 0⟩ [] :=
  ⟨rfl, by simp, fun _ => rfl, by simp, fun _ => rfl⟩

theorem answered_rejectReserved (s : State) : ∃ r new, Answered s s.rejectReserved r new := by
  unfold State.rejectReserved
  split
  · exact ⟨_, _, answered_respond s .sinkFailure⟩
  · exact ⟨_, _, answered_respond s .invalidInput⟩

/-- Completing a command answers OK with its RDATA, or SINK_FAILURE with the information of its last transaction. -/
theorem answered_complete (s : State) (ts : List (List Byte)) (p : Acc) (rdata : BitVec 12) :
    ∃ r new, Answered s (s.complete ts p rdata) r new := by
  obtain ⟨k, -, ht, hc⟩ | ⟨k, e, pre, bytes, -, n, -, -, ht, hc⟩ := complete_cases s ts p rdata
  · exact ⟨⟨.ok, rdata, 0⟩, ts.map Txn.accepted, by simp [hc], by simp [hc, ht], by simp, by simp, by simp⟩
  · exact ⟨⟨.sinkFailure, 0, e⟩, pre.map Txn.accepted ++ [.failed bytes e n], by simp [hc], by simp [hc, ht],
      by simp, by simp +contextual, fun h => absurd (h bytes e n) (by simp)⟩

/-- Every command that answers a next state gives one response (R70). -/
theorem exec_answered {i : Instr} {s t : State} (h : exec i s = .next t) : ∃ r new, Answered s t r new := by
  obtain ⟨-, rfl⟩ | ⟨-, -, rfl⟩ | ⟨-, -, q, -, rfl⟩ := exec_cases h
  · exact ⟨_, _, answered_respond s .sinkFailure⟩
  · exact ⟨_, _, answered_respond s .invalidInput⟩
  · exact answered_complete ..

theorem runWord_answered {w : CmdWord} {payload : List Byte} {s t : State} (h : runWord w payload s = .next t) :
    ∃ r new, Answered s t r new := by
  obtain ⟨i, -, hi⟩ | ⟨-, -, rfl⟩ := runWord_cases h
  · exact exec_answered hi
  · exact answered_rejectReserved s

/-- The fields of a response word stand where R70 puts them, for every ERRW. -/
theorem responseWord_fields {errw : Nat} (status : Status) (rdata : BitVec 12) (errinfo : BitVec errw) :
    (responseWord status rdata errinfo).extractLsb' 0 2 = status.code ∧
      (responseWord status rdata errinfo).extractLsb' 2 12 = rdata ∧
      (responseWord status rdata errinfo).extractLsb' 14 errw = errinfo :=
  ⟨extract_low_of_append _ _,
    (extract_high_of_append _ status.code 0 12).trans (extract_low_of_append _ rdata),
    (extract_high_of_append _ status.code 12 errw).trans
      ((extract_high_of_append _ rdata 0 errw).trans BitVec.extractLsb'_eq_self)⟩

/-- STATUS 3 is never produced (R70). -/
theorem Status.code_ne_three (status : Status) : status.code ≠ 3 := by
  cases status <;> decide

/-- Settles O17: the layout is that of the response word, and every word is answered by one response or by completing
a plan. -/
theorem responseOfEveryCommandWord : Obligations.ResponseOfEveryCommandWord := by
  refine ⟨fun r => ?_, rfl, rfl, rfl, fun w payload s t h => ?_⟩
  · obtain ⟨hstatus, hrdata, herrinfo⟩ := responseWord_fields r.status r.rdata r.errinfo
    exact ⟨hstatus, hrdata, herrinfo, fun h => r.status.code_ne_three (hstatus.symm.trans h)⟩
  · obtain ⟨r, new, hrsps, htxns, hrdata, hfailing, hnoInfo⟩ := runWord_answered h
    exact ⟨r, new, hrsps, htxns, hrdata, hfailing, hnoInfo⟩

/-- Under the invariant every command answers: if it passes its validation it has a plan (R97). -/
theorem exec_answers (i : Instr) {s : State} (hs : s.Inv) : ∃ t, exec i s = .next t := by
  cases hf : s.failed with
  | true => exact ⟨s.refuseFailed, by simp [exec_eq, answerWith, hf]⟩
  | false =>
    cases hfits : fits i with
    | false => exact ⟨s.takeInvalidInput, by simp [exec_eq, answerWith, hf, hfits]⟩
    | true =>
      obtain ⟨q, hq, -⟩ := plan_boundary (part_boundary_of_inv hs hf) hfits
      exact ⟨_, exec_of_plan hf hfits hq⟩

/-- A command word takes no input beyond itself and its payload. -/
theorem runWord_inputs {w : CmdWord} {payload : List Byte} {s t : State} (h : runWord w payload s = .next t) :
    t.inputs = s.inputs := by
  obtain ⟨i, -, hi⟩ | ⟨-, -, rfl⟩ := runWord_cases h
  · obtain ⟨-, hinputs, -⟩ := frameOfEveryCommand i s t hi
    exact hinputs
  · obtain ⟨r, hr⟩ := rejectReserved_eq_respond s
    rw [hr, respond_inputs]

theorem runWord_answers (w : CmdWord) (payload : List Byte) {s : State} (hs : s.Inv) :
    ∃ t, runWord w payload s = .next t := by
  unfold runWord
  cases decode w payload with
  | legal i => exact exec_answers i hs
  | reserved r => exact ⟨_, rfl⟩

/-- Settles O15: a reserved word is rejected, and a legal one has a plan under the invariant; either way one response
is given. -/
theorem everyCommandIsAnswered : Obligations.EveryCommandIsAnswered := by
  intro s w payload rest hs hin hlen
  obtain ⟨t, ht⟩ := runWord_answers w payload (s := { s with inputs := rest }) hs
  obtain ⟨r, new, hr⟩ := runWord_answered ht
  exact ⟨t, r, (step_command hin hlen).trans ht, runWord_inputs ht, hr.rsps⟩

/-! RDATA. -/

theorem planOf_rdata {e : Option Emission} {q : Plan} (h : planOf e = some q) : q.rdata = 0 := by
  obtain ⟨e', -, rfl⟩ := Option.map_eq_some_iff.mp h
  rfl

/-- Only BYTE_ALIGNED and UNWRITTEN plan to answer with RDATA (R71). -/
theorem plan_rdata {i : Instr} {s : State} {q : Plan} (hq : plan s i = some q) (ha : i ≠ .byteAligned)
    (hu : i ≠ .unwritten) : q.rdata = 0 := by
  cases i with
  | writeBytes buf =>
    simp only [plan] at hq
    split at hq
    · obtain rfl := Option.some.inj hq
      rfl
    · exact planOf_rdata hq
  | dispose =>
    obtain rfl := Option.some.inj hq
    rfl
  | byteAligned => exact absurd rfl ha
  | unwritten => exact absurd rfl hu
  | _ => exact planOf_rdata hq

/-- A command answered OK passed its validation, completed its plan and answers with the plan's RDATA (R56, R70). -/
theorem exec_ok {i : Instr} {s t : State} {r : Response} (h : exec i s = .next t) (hr : t.rsps = s.rsps ++ [r])
    (hok : r.status = .ok) : fits i = true ∧ t.failed = false ∧ ∃ q, plan s i = some q ∧ r.rdata = q.rdata := by
  obtain ⟨-, rfl⟩ | ⟨-, -, rfl⟩ | ⟨hf, hfits, q, hq, rfl⟩ := exec_cases h
  · obtain rfl : _ = r := by simpa using hr
    cases hok
  · obtain rfl : _ = r := by simpa using hr
    cases hok
  · obtain ⟨k, -, -, hc⟩ | ⟨k, e, -, -, -, -, -, -, -, hc⟩ := complete_cases s q.txns q.part q.rdata
    · obtain rfl : _ = r := by simpa [hc] using hr
      exact ⟨hfits, by simp [hc, hf], q, hq, rfl⟩
    · obtain rfl : _ = r := by simpa [hc] using hr
      cases hok

/-- RDATA of UNWRITTEN holds the pair (R71). -/
theorem unwrittenRdata_fields (plen : BitVec 4) (pval : BitVec 8) :
    (unwrittenRdata plen pval).extractLsb' 0 4 = plen ∧ (unwrittenRdata plen pval).extractLsb' 4 8 = pval :=
  ⟨extract_low_of_append _ _, (extract_high_of_append _ plen 0 8).trans BitVec.extractLsb'_eq_self⟩

theorem aligned_eq_decide (s : State) : s.aligned = decide (s.plen = 0) := by
  rw [Bool.eq_iff_iff, aligned_iff, decide_eq_true_iff]

theorem alignedRdata_eq (answer : Bool) : alignedRdata answer = if answer then 1 else 0 := by
  cases answer <;> decide

/-- RDATA of BYTE_ALIGNED holds the answer in its bit 0 and zeros above (R71). -/
theorem alignedRdata_fields (answer : Bool) :
    (alignedRdata answer).getLsbD 0 = answer ∧ (alignedRdata answer).extractLsb' 1 11 = 0 := by
  cases answer <;> decide

/-- Settles O18: RDATA is the plan's, and only BYTE_ALIGNED and UNWRITTEN plan to answer with one. -/
theorem rdataOfEveryOperation : Obligations.RdataOfEveryOperation := by
  intro i s t r h hr hok
  obtain ⟨-, -, q, hq, hrdata⟩ := exec_ok h hr hok
  rw [hrdata]
  refine ⟨?_, ?_, plan_rdata hq⟩
  · rintro rfl
    obtain rfl := Option.some.inj hq
    rw [← aligned_eq_decide]
    exact alignedRdata_fields s.aligned
  · rintro rfl
    obtain rfl := Option.some.inj hq
    exact unwrittenRdata_fields s.plen s.pval

/-- Settles O40: the plan has no transaction, leaves P as it is, and answers whether P is empty. -/
theorem byteAlignedReportsEmptyAccumulator : Obligations.ByteAlignedReportsEmptyAccumulator := by
  intro s hs
  have hrdata : alignedRdata s.aligned = if s.plen = 0 then 1 else 0 := by
    simp only [alignedRdata_eq, aligned_iff]
  rw [← hrdata, exec_of_plan hs rfl rfl]
  simp [complete_nil, State.respond]

/-- Settles O43: the plan has no transaction, leaves P as it is, and answers the pair. -/
theorem unwrittenReportsPendingBits : Obligations.UnwrittenReportsPendingBits := by
  intro s hs
  obtain ⟨hlow, hhigh⟩ := unwrittenRdata_fields s.plen s.pval
  refine ⟨_, hlow, hhigh, ?_⟩
  rw [exec_of_plan hs rfl rfl]
  simp [complete_nil, State.respond]

end Sys2Proof.Machine
end

section
/-! Huffman writing on the block (R73, R192). -/

namespace Sys2Proof.Machine

/-- The block answers OK only if the command fits and no transaction failed (R70). -/
theorem issueBlock_done {s t : State} {i : Instr} (h : issueBlock s i = .done t) :
    exec i s = .next t ∧ fits i = true ∧ t.failed = false := by
  unfold issueBlock at h
  cases hx : exec i s with
  | fault r => simp [hx] at h
  | refused r => simp [hx] at h
  | next u =>
    simp only [hx] at h
    split at h
    next hok =>
      obtain rfl := Reply.done.inj h
      obtain ⟨r, new, hr⟩ := exec_answered hx
      obtain ⟨hfits, hfailed, -⟩ := exec_ok hx hr.rsps (by simpa [State.lastStatus, hr.rsps] using hok)
      exact ⟨rfl, hfits, hfailed⟩
    next => cases h

/-- Operations all answered OK are a call sequence of commands that fit, in which no transaction failed. -/
theorem runAll_of_issueUntilError {is : List Instr} {s t : State} (hs : s.failed = false)
    (h : issueUntilError issueBlock is s = .done t) :
    runAll is s = .next t ∧ (∀ i ∈ is, fits i = true) ∧ t.failed = false := by
  induction is generalizing s with
  | nil =>
    obtain rfl := Reply.done.inj h
    exact ⟨rfl, by simp, hs⟩
  | cons i rest ih =>
    cases hu : issueBlock s i with
    | done u =>
      obtain ⟨hx, hfits, hfailed⟩ := issueBlock_done hu
      obtain ⟨hrun, hrest, ht⟩ := ih hfailed (by simpa [issueUntilError, hu] using h)
      exact ⟨by simp [runAll, hx, hrun], List.forall_mem_cons.mpr ⟨hfits, hrest⟩, ht⟩
    | error u kind => simp [issueUntilError, hu] at h
    | unmodelled => simp [issueUntilError, hu] at h

/-- The command of a step of a table (R73). -/
def stepCommand (hw : Carrier) (st : Count × BitVec hw.width) : Instr := (WriteRecord.unsigned hw st.1 st.2).toInstr

theorem opBits_stepCommand (o : Order) (total : Nat) (hw : Carrier) (st : Count × BitVec hw.width) :
    opBits o total (stepCommand hw st) = seq o st.1.toNat st.2.toNat := by
  cases hw <;> rfl

theorem stepCommand_ne_dispose (hw : Carrier) (st : Count × BitVec hw.width) : stepCommand hw st ≠ .dispose := by
  cases hw <;> nofun

/-- The commands of steps that fit write the bits of the steps in order (R192). -/
theorem streamOfCalls_stepCommands (o : Order) (total : Nat) (hw : Carrier) (steps : List (Count × BitVec hw.width))
    (hfits : ∀ st ∈ steps, fits (stepCommand hw st) = true) :
    streamOfCalls o total (steps.map (stepCommand hw)) = steps.flatMap (fun st => seq o st.1.toNat st.2.toNat) := by
  induction steps generalizing total with
  | nil => rfl
  | cons st rest ih =>
    rw [List.forall_mem_cons] at hfits
    obtain ⟨hst, hrest⟩ := hfits
    rw [List.map_cons, streamOfCalls_cons, ih _ hrest, List.flatMap_cons, callBits, if_pos hst, opBits_stepCommand]

/-- Settles O58: the steps answered OK are a call sequence in which no transaction fails, so the stream law gives its
bits, and these are the bits of the steps. -/
theorem huffmanWritesTheStepsInOrder : Obligations.HuffmanWritesTheStepsInOrder := by
  intro Sym _ table symbol steps s t hs hlookup h
  have hissue : issueUntilError issueBlock (steps.map (stepCommand table.hw)) s = .done t := by
    rw [writeHuffman, EncodeTable.commands, hlookup] at h
    exact h
  obtain ⟨hrun, hfits, ht⟩ := runAll_of_issueUntilError hs.1 hissue
  rw [← streamOfCalls_stepCommands s.order s.plen.toNat table.hw steps (List.forall_mem_map.mp hfits)]
  exact runAll_stream hrun ht (fun _ => hs.2) (by have := hs.2.1; omega)
    (by simp [stepCommand_ne_dispose])

end Sys2Proof.Machine
end

section
/-! The accumulator as a first-in first-out queue of bits (R90 to R100). -/

namespace Sys2Proof.Machine

theorem push_msb_val {a a' : Acc} {n v : Nat} (h : push .msbFirst a n v = some a') :
    a'.val = a.val * 2 ^ n + v := by
  obtain ⟨hl, hv⟩ := push_pre h
  obtain rfl := Option.some.inj ((push_msb hl hv).symm.trans h)
  rfl

theorem push_lsb_val {a a' : Acc} {n v : Nat} (h : push .lsbFirst a n v = some a') :
    a'.val = a.val + v * 2 ^ a.len := by
  obtain ⟨hl, hv⟩ := push_pre h
  obtain rfl := Option.some.inj ((push_lsb hl hv).symm.trans h)
  rfl

theorem pop_msb_val {a a' : Acc} {n r : Nat} (h : pop .msbFirst a n = some (r, a')) :
    r = a.val / 2 ^ (a.len - n) ∧ a'.val = a.val % 2 ^ (a.len - n) := by
  obtain ⟨rfl, rfl⟩ := Prod.mk.inj (Option.some.inj ((pop_msb (pop_pre h)).symm.trans h))
  exact ⟨rfl, rfl⟩

theorem pop_lsb_val {a a' : Acc} {n r : Nat} (h : pop .lsbFirst a n = some (r, a')) :
    r = a.val % 2 ^ n ∧ a'.val = a.val / 2 ^ n := by
  obtain ⟨rfl, rfl⟩ := Prod.mk.inj (Option.some.inj ((pop_lsb (pop_pre h)).symm.trans h))
  exact ⟨rfl, rfl⟩

/-- Push answers exactly within its precondition (R97, U3). -/
theorem push_eq_none_iff (o : Order) (a : Acc) (n v : Nat) :
    push o a n v = none ↔ ¬(a.len + n ≤ a.carrier.width ∧ v < 2 ^ n) := by
  refine ⟨fun h ⟨hl, hv⟩ => ?_, fun hpre => if_neg hpre⟩
  cases o with
  | msbFirst => exact Option.some_ne_none _ ((push_msb hl hv).symm.trans h)
  | lsbFirst => exact Option.some_ne_none _ ((push_lsb hl hv).symm.trans h)

/-- Pop answers exactly within its precondition (R97, U4). -/
theorem pop_eq_none_iff (o : Order) (a : Acc) (n : Nat) : pop o a n = none ↔ ¬ n ≤ a.len := by
  refine ⟨fun h hn => ?_, fun hpre => if_neg hpre⟩
  cases o with
  | msbFirst => exact Option.some_ne_none _ ((pop_msb hn).symm.trans h)
  | lsbFirst => exact Option.some_ne_none _ ((pop_lsb hn).symm.trans h)

/-- A value whose bits are the front of the queue is what pop returns; the rest of the queue is left. -/
theorem pop_of_queue_eq {o : Order} {a : Acc} {n v : Nat} {rest : List Bool} (ha : a.Clean) (hv : v < 2 ^ n)
    (hq : a.queue o = seq o n v ++ rest) : ∃ a', pop o a n = some (v, a') ∧ a'.Clean ∧ a'.queue o = rest := by
  have hlen := congrArg List.length hq
  simp only [List.length_append, queue_length, seq_length] at hlen
  obtain ⟨r, a', hpop, -, -, hclean, hr⟩ := pop_spec o (n := n) (by omega) ha
  obtain ⟨hseq, hrest⟩ := List.append_inj ((pop_queue hpop).trans hq) (by simp)
  obtain rfl := seq_injective hr hv hseq
  exact ⟨a', hpop, hclean, hrest⟩

/-- Pop of everything held returns the packed value and leaves the accumulator empty (R94, R95, R100). -/
theorem pop_len (o : Order) {a : Acc} (ha : a.Clean) : pop o a a.len = some (a.val, ⟨a.carrier, 0, 0⟩) := by
  cases o with
  | msbFirst => rw [pop_msb le_rfl, Nat.sub_self, pow_zero, Nat.div_one, Nat.mod_one]
  | lsbFirst => rw [pop_lsb le_rfl, Nat.sub_self, Nat.mod_eq_of_lt ha, Nat.div_eq_of_lt ha]

/-- The oldest bit held stands at the place of stream bit 0 (R91). -/
theorem queue_head? (o : Order) {a : Acc} (h : 0 < a.len) :
    (a.queue o).head? = some (a.val.testBit (bitIndex o a.len 0)) := by
  have hlen : 0 < (seq o a.len a.val).length := by simpa using h
  rw [Acc.queue, List.head?_eq_getElem?, List.getElem?_eq_getElem hlen, seq_getElem]

/-- Settles O19: push keeps the invariant, its packed value is that of its order, and it appends to the queue. -/
theorem pushAppendsToQueue : Obligations.PushAppendsToQueue := by
  intro o a n v hl hv ha
  obtain ⟨a', hpush, hcarrier, hlen, hclean⟩ := push_spec o hl hv ha
  refine ⟨a', hpush, hcarrier, hlen, ?_, ?_, hclean, push_queue hpush ha⟩
  · rintro rfl
    exact push_msb_val hpush
  · rintro rfl
    exact push_lsb_val hpush

/-- Settles O20: the popped bits and then the queue left are the old queue, so they are its first n bits and its
rest. -/
theorem popTakesFromFront : Obligations.PopTakesFromFront := by
  intro o a n hn ha
  obtain ⟨r, a', hpop, hcarrier, hlen, hclean, hr⟩ := pop_spec o hn ha
  refine ⟨r, a', hpop, hcarrier, hlen, ?_, ?_, hr, hclean, ?_, ?_⟩
  · rintro rfl
    exact pop_msb_val hpop
  · rintro rfl
    exact pop_lsb_val hpop
  · rw [← pop_queue hpop, List.take_left' (seq_length ..)]
  · rw [← pop_queue hpop, List.drop_left' (seq_length ..)]

/-- Settles O21: after the two pushes the queue is the bits of v1 and then those of v2, and each pop takes its value
from the front. -/
theorem accumulatorIsFirstInFirstOut : Obligations.AccumulatorIsFirstInFirstOut := by
  intro o c n1 v1 n2 v2 hl hv1 hv2
  have hempty : Acc.Clean ⟨c, 0, 0⟩ := Nat.one_pos
  obtain ⟨a1, hpush1, hc1, hl1, hclean1⟩ := push_spec o (a := ⟨c, 0, 0⟩) (n := n1)
    (by rw [Nat.zero_add]; exact (Nat.le_add_right ..).trans hl) hv1 hempty
  obtain ⟨a2, hpush2, -, -, hclean2⟩ := push_spec o (a := a1) (n := n2) (by rw [hl1, hc1, Nat.zero_add]; exact hl)
    hv2 hclean1
  have hq1 : a1.queue o = seq o n1 v1 := by
    rw [push_queue hpush1 hempty, queue_of_len_zero o rfl, List.nil_append]
  have hq2 : a2.queue o = seq o n1 v1 ++ seq o n2 v2 := by rw [push_queue hpush2 hclean1, hq1]
  obtain ⟨a3, hpop1, hclean3, hq3⟩ := pop_of_queue_eq hclean2 hv1 hq2
  obtain ⟨a4, hpop2, -, -⟩ := pop_of_queue_eq (rest := []) hclean3 hv2 (by rw [hq3, List.append_nil])
  exact ⟨a1, a2, a3, a4, hpush1, hpush2, hpop1, hpop2⟩

/-- Settles O22: the pop takes all that P holds, and a sink byte carries its bits in the order in which P held
them. -/
theorem fullByteLeavesAsItStands : Obligations.FullByteLeavesAsItStands := by
  intro o v hv
  refine ⟨pop_len o (a := ⟨.w8, 8, v⟩) hv, ?_, ?_⟩
  · rw [bytesBits_cons, seq_byteOf, bytesBits_nil, List.append_nil, Acc.queue]
  · rw [queue_head? o (a := ⟨.w8, 8, v⟩) (Nat.succ_pos 7)]
    cases o <;> rfl

/-- Settles O23: both operations answer exactly within their preconditions. -/
theorem noValueOutsidePreconditions : Obligations.NoValueOutsidePreconditions :=
  ⟨push_eq_none_iff, pop_eq_none_iff⟩

end Sys2Proof.Machine
end

section
/-! WRITE_BIT, WRITE and WRITE_SIGNED: what the validation accepts and rejects (R111, R117, R125), that the carrier has
no other part in them (R117), and the closed forms of one bit and of `pack` (R110, R115). -/

namespace Sys2Proof.Machine

/-! The validation. -/

/-- A command that fails its validation is rejected and leaves no trace (R206). -/
theorem rejectedAsInvalid_of_not_fits {i : Instr} (h : fits i = false) : RejectedAsInvalid i := fun s hs => by
  simp only [exec_eq, answerWith, hs, h, Bool.false_eq_true, if_false, takeInvalidInput_eq, State.respond]

/-- What the validation of WRITE rejects: more bits than the carrier has, or a value of more bits (R111). -/
theorem fitsUnsigned_eq_false_iff {c : Carrier} {bits value : Nat} (hv : value < 2 ^ c.width) :
    fitsUnsigned c bits value = false ↔ c.width < bits ∨ (bits < c.width ∧ 2 ^ bits ≤ value) := by
  rw [← Bool.not_eq_true, fitsUnsigned_iff hv, not_and_or, not_le, not_lt]
  refine or_congr_right' fun hle => ⟨fun hbig => ⟨?_, hbig⟩, fun hbig => hbig.2⟩
  exact (Nat.pow_lt_pow_iff_right Nat.one_lt_two).mp (hbig.trans_lt hv)

/-- Settles O26: the command's validation is that of its carrier. -/
theorem writeRejectsWhatDoesNotFit : Obligations.WriteRejectsWhatDoesNotFit := fun _ =>
  ⟨fun v h => rejectedAsInvalid_of_not_fits ((fitsUnsigned_eq_false_iff (c := .w8) v.isLt).mpr h),
    fun v h => rejectedAsInvalid_of_not_fits ((fitsUnsigned_eq_false_iff (c := .w16) v.isLt).mpr h),
    fun v h => rejectedAsInvalid_of_not_fits ((fitsUnsigned_eq_false_iff (c := .w32) v.isLt).mpr h),
    fun v h => rejectedAsInvalid_of_not_fits ((fitsUnsigned_eq_false_iff (c := .w64) v.isLt).mpr h),
    fun v h => rejectedAsInvalid_of_not_fits ((fitsUnsigned_eq_false_iff (c := .w128) v.isLt).mpr h)⟩

/-- The validation of WRITE_SIGNED accepts the signed range of every count from 1 to W (R125). -/
theorem fitsSigned_of_range {c : Carrier} {bits : Nat} {value : Int} (h1 : 1 ≤ bits) (hc : bits ≤ c.width)
    (hlow : -(2 ^ (bits - 1)) ≤ value) (hhigh : value < 2 ^ (bits - 1)) : fitsSigned c bits value = true := by
  rw [fitsSigned, if_neg (by omega), if_neg (by omega), if_neg (by omega)]

/-- WRITE_SIGNED of a value in range adds the bits of its two's complement, whatever its carrier (R114, R126). -/
theorem writesBits_of_packSigned {i : Instr} {c : Carrier} {n : Nat} {v : Int} (hfits : fits i = fitsSigned c n v)
    (hplan : ∀ s, plan s i = planOf (pack s.order c n (packSigned n v) s.part)) (h1 : 1 ≤ n) (hc : n ≤ c.width)
    (hlow : -(2 ^ (n - 1)) ≤ v) (hhigh : v < 2 ^ (n - 1)) : WritesBits i (fun o => seq o n (v % 2 ^ n).toNat) :=
  fun s hs hk => exec_streams hs (hfits.trans (fitsSigned_of_range h1 hc hlow hhigh)) (hplan s)
    (pack_adds s.order hs.boundary hc (packSigned_lt n v)) hk

/-- Settles O30: each width packs the two's complement, under the validation of its carrier. -/
theorem signedWriteAddsTwosComplement : Obligations.SignedWriteAddsTwosComplement := fun _ h1 =>
  ⟨fun _ => writesBits_of_packSigned (c := .w8) rfl (fun _ => rfl) h1,
    fun _ => writesBits_of_packSigned (c := .w16) rfl (fun _ => rfl) h1,
    fun _ => writesBits_of_packSigned (c := .w32) rfl (fun _ => rfl) h1,
    fun _ => writesBits_of_packSigned (c := .w64) rfl (fun _ => rfl) h1,
    fun _ => writesBits_of_packSigned (c := .w128) rfl (fun _ => rfl) h1⟩

/-! WRITE_BIT in closed form. -/

/-- Settles O24: the bits pending after the push are those before and then the new one; they stay pending below eight,
and eight of them are the byte emitted. -/
theorem writeBitPushesOneBit : Obligations.WriteBitPushesOneBit := by
  intro b s hs
  obtain ⟨hlen7, -⟩ := hs.2
  obtain ⟨p, hpush, -, hlen, hclean⟩ := push_spec s.order (a := s.part) (n := 1) (v := bitValue b)
    (Nat.succ_le_succ hlen7) (by cases b <;> decide) hs.boundary.clean
  have hqueue : s.pending ++ [b] = seq s.order p.len p.val := by
    rw [← seq_bitValue s.order]; exact (push_queue hpush hs.boundary.clean).symm
  have hmsb (ho : s.order = .msbFirst) : p.val = 2 * s.pval.toNat + bitValue b := by
    rw [push_msb_val (ho ▸ hpush), part_val, pow_one, mul_comm]
  have hlsb (ho : s.order = .lsbFirst) : p.val = s.pval.toNat + bitValue b * 2 ^ s.plen.toNat :=
    push_lsb_val (ho ▸ hpush)
  rw [part_len] at hlen
  have hexec := exec_streams (i := .writeBit b) hs rfl rfl (writeBitPath_adds s.order b hs.boundary)
  rw [List.length_singleton] at hexec
  refine ⟨fun hlt => ?_, fun heq hok => ?_⟩
  · obtain ⟨t, ht, hstream⟩ := hexec fun j hj => by omega
    obtain ⟨hdone, hplen, hpval⟩ := hstream.eq_of_bits (bytes := []) (by omega) hclean hqueue
    exact ⟨t, ht, hdone, hplen.trans hlen, fun ho => hpval.trans (hmsb ho), fun ho => hpval.trans (hlsb ho)⟩
  · rw [heq] at hexec hlen hlsb
    obtain ⟨t, ht, hstream⟩ := hexec hok
    rw [Acc.Clean, hlen] at hclean
    have hbyte : (byteOf p.val).toNat = p.val := Nat.mod_eq_of_lt hclean
    obtain ⟨hdone, hplen, hpval⟩ := hstream.eq_of_bits (bytes := [byteOf p.val]) (Nat.zero_le 7) Nat.one_pos
      (by simpa [hlen] using hqueue)
    exact ⟨t, byteOf p.val, ht, hdone, BitVec.eq_of_toNat_eq hplen, BitVec.eq_of_toNat_eq hpval,
      fun ho => hbyte.trans (hmsb ho), fun ho => hbyte.trans (hlsb ho)⟩

/-! The carrier of WRITE. -/

/-- The same bits held in a carrier of another width. -/
def Acc.recarried (c : Carrier) (a : Acc) : Acc := { a with carrier := c }

@[simp] theorem recarried_len (c : Carrier) (a : Acc) : (a.recarried c).len = a.len := rfl

/-- Pop does not look at the carrier (R94, R95). -/
theorem pop_recarried (o : Order) (c : Carrier) (a : Acc) (n : Nat) :
    pop o (a.recarried c) n = (pop o a n).map fun (r, a') => (r, a'.recarried c) := by
  by_cases h : n ≤ a.len
  · cases o with
    | msbFirst => rw [pop_msb h]; exact pop_msb h
    | lsbFirst => rw [pop_lsb h]; exact pop_lsb h
  · rw [(pop_eq_none_iff o a n).mpr h]
    exact (pop_eq_none_iff ..).mpr h

/-- The drain does not look at the carrier of W (R113). -/
theorem drainBytes_recarried (o : Order) (c : Carrier) (k : Nat) (w : Acc) :
    drainBytes o k (w.recarried c) = (drainBytes o k w).map fun (bs, w') => (bs, w'.recarried c) := by
  induction k generalizing w with
  | zero => rfl
  | succ k ih =>
    rw [drainBytes, drainBytes, pop_recarried]
    cases pop o w 8 with
    | none => rfl
    | some popped =>
      simp only [Option.map_some, ih]
      cases drainBytes o k popped.2 <;> rfl

/-- The fill step does not look at the carrier of W (R113). -/
theorem fillStep_recarried (o : Order) (c : Carrier) (w p : Acc) :
    fillStep o (w.recarried c) p = (fillStep o w p).map fun (e, w') => (e, w'.recarried c) := by
  rw [fillStep, fillStep, pop_recarried, recarried_len]
  cases pop o w (min p.room w.len) with
  | none => rfl
  | some popped =>
    simp only [Option.map_some]
    cases push o p (min p.room w.len) popped.1 with
    | none => rfl
    | some p' =>
      simp only
      cases emitIfFull o p' <;> rfl

/-- The carry step does not look at the carrier of W (R113). -/
theorem carryStep_recarried (o : Order) (c : Carrier) (w p : Acc) :
    carryStep o (w.recarried c) p = carryStep o w p := by
  rw [carryStep, carryStep, pop_recarried, recarried_len]
  cases pop o w w.len <;> rfl

/-- `pack` of a value that fits both carriers is the same with either: W holds the same bits (R117). -/
theorem pack_carrier_eq (o : Order) {c1 c2 : Carrier} {bits value : Nat} (p : Acc) (h1 : bits ≤ c1.width)
    (h2 : bits ≤ c2.width) (hv : value < 2 ^ bits) : pack o c1 bits value p = pack o c2 bits value p := by
  have hseed : seed c2 bits value = some (Acc.recarried c2 ⟨c1, bits, value⟩) := seed_spec h2 hv
  have hslow : packSlow o c2 bits value p = packSlow o c1 bits value p := by
    simp only [packSlow, seed_spec h1 hv, hseed, fillStep_recarried]
    cases fillStep o ⟨c1, bits, value⟩ p with
    | none => rfl
    | some filled =>
      simp only [Option.map_some, drainBytes_recarried, recarried_len]
      cases drainBytes o (filled.2.len / 8) filled.2 with
      | none => rfl
      | some drained => simp only [Option.map_some, carryStep_recarried]
  rw [pack, pack, hslow]

/-- Settles O27: the value passes both validations, and `pack` does not see the carrier. -/
theorem carrierEntersValidationOnly : Obligations.CarrierEntersValidationOnly := by
  intro c1 c2 n v s h1 h2 hv
  have hwidth {c : Carrier} (hc : n.toNat ≤ c.width) : v.toNat < 2 ^ c.width :=
    hv.trans_le (Nat.pow_le_pow_right Nat.two_pos hc)
  have hexec {c : Carrier} (hc : n.toNat ≤ c.width) :
      exec (writeInstr c n v) s = answerWith s true (planOf (pack s.order c n.toNat v.toNat s.part)) := by
    obtain ⟨hfits, hplan⟩ := fits_plan_writeInstr n s (hwidth hc)
    rw [exec_eq, hfits, hplan, (fitsUnsigned_iff (hwidth hc)).mpr ⟨hc, hv⟩]
  rw [hexec h1, hexec h2, pack_carrier_eq s.order s.part h1 h2 hv]

/-! `pack` in closed form. -/

/-- The bits a datapath adds determine what it emits and what it leaves in P. -/
theorem Adds.unique {o : Order} {e e' : Option Emission} {p : Acc} {bits : List Bool} (h : Adds o e p bits)
    (h' : Adds o e' p bits) : e = e' := by
  obtain ⟨⟨bs, c, l, x⟩, rfl, hb, hbits⟩ := h
  obtain ⟨⟨bs', c', l', x'⟩, rfl, hb', hbits'⟩ := h'
  obtain ⟨rfl, hqueue⟩ := bytesBits_append_inj (by simpa using hb.len) (by simpa using hb'.len)
    (hbits.trans hbits'.symm)
  obtain rfl : c = c' := hb.carrier.trans hb'.carrier.symm
  obtain rfl : l = l' := by simpa using congrArg List.length hqueue
  obtain rfl := seq_injective hb.clean hb'.clean hqueue
  rfl

/-- Conversion to a byte takes the value mod 256 (R101). -/
theorem byteOf_mod (v : Nat) : byteOf (v % 256) = byteOf v :=
  BitVec.eq_of_toNat_eq (Nat.mod_mod v 256)

/-- The bits of a value of `n` bits are its low `n` bits. -/
theorem seq_mod (o : Order) (n x : Nat) : seq o n (x % 2 ^ n) = seq o n x := by
  refine List.ext_getElem (by simp) fun i h _ => ?_
  rw [seq_getElem, seq_getElem, Nat.testBit_mod_two_pow, decide_eq_true (bitIndex_lt (by simpa using h)),
    Bool.true_and]

/-- Under MSB_FIRST the `l` high bits of a value go before its `n` low ones. -/
theorem seq_msb_split (l n x : Nat) :
    seq .msbFirst (l + n) x = seq .msbFirst l (x / 2 ^ n) ++ seq .msbFirst n x := by
  rw [← seq_mod _ n, ← seq_msb_append l (Nat.mod_lt x (Nat.two_pow_pos n)), Nat.div_add_mod']

/-- Under LSB_FIRST the `l` low bits of a value go before its `n` high ones. -/
theorem seq_lsb_split (l n x : Nat) :
    seq .lsbFirst (l + n) x = seq .lsbFirst l x ++ seq .lsbFirst n (x / 2 ^ l) := by
  rw [← seq_mod _ l, ← seq_lsb_append n _ (Nat.mod_lt x (Nat.two_pow_pos l)), Nat.mod_add_div']

/-- Under MSB_FIRST a value of `m` bits is its whole bytes from the top and then its low `m % 8` bits. -/
theorem seq_msb_bytes (m x : Nat) :
    seq .msbFirst m x =
      bytesBits .msbFirst ((List.range (m / 8)).map fun j => byteOf (x / 2 ^ (m - 8 * (j + 1)) % 256)) ++
        seq .msbFirst (m % 8) x := by
  have hbytes : (List.range (m / 8)).map (fun j => byteOf (x / 2 ^ (m - 8 * (j + 1)) % 256)) =
      (List.range (m / 8)).map fun j => byteOf (x / 2 ^ (m % 8) / 2 ^ (8 * bitIndex .msbFirst (m / 8) j)) := by
    refine List.map_congr_left fun j hj => ?_
    have hplace : m - 8 * (j + 1) = m % 8 + 8 * (m / 8 - 1 - j) := by have := List.mem_range.mp hj; omega
    rw [byteOf_mod, hplace, pow_add, Nat.div_div_eq_div_mul, bitIndex_msb]
  rw [hbytes, ← seq_whole_bytes, ← seq_msb_split, Nat.div_add_mod]

/-- Under LSB_FIRST a value of `m` bits is its whole bytes from the bottom and then its high `m % 8` bits. -/
theorem seq_lsb_bytes (m x : Nat) :
    seq .lsbFirst m x =
      bytesBits .lsbFirst ((List.range (m / 8)).map fun j => byteOf (x / 2 ^ (8 * j) % 256)) ++
        seq .lsbFirst (m % 8) (x / 2 ^ (8 * (m / 8))) := by
  have hwhole := seq_whole_bytes .lsbFirst (m / 8) x
  simp only [bitIndex_lsb] at hwhole
  simp only [byteOf_mod]
  rw [← hwhole, ← seq_lsb_split, Nat.div_add_mod]

/-- The fast path: both the push and the closed form append the value to P (R92, R93, R115). -/
theorem pack_eq_packArith_of_lt (o : Order) (c : Carrier) {bits value : Nat} {p : Acc} (hp : p.Boundary)
    (hfast : bits < 8 - p.len) (hv : value < 2 ^ bits) :
    pack o c bits value p = some (packArith o bits value p) := by
  have hroom : p.len + bits ≤ p.carrier.width := by rw [hp.carrier, width_w8]; omega
  cases o with
  | msbFirst => simp [pack, packArith, Acc.room, hp.carrier, hfast, push_msb hroom hv]
  | lsbFirst => simp [pack, packArith, Acc.room, hp.carrier, hfast, push_lsb hroom hv]

/-- The closed form of the slow path under MSB_FIRST: the high bits of the value complete the byte of P, and the others
are whole bytes and then the bits left pending (R115). -/
theorem packArith_msb_adds {bits value : Nat} {p : Acc} (hp : p.Boundary) (hslow : 8 - p.len ≤ bits)
    (hv : value < 2 ^ bits) :
    Adds .msbFirst (some (packArith .msbFirst bits value p)) p (seq .msbFirst bits value) := by
  have hbyte : 8 = p.len + (8 - p.len) := by have := hp.len; omega
  generalize ht : 8 - p.len = t at hslow hbyte
  obtain ⟨m, rfl⟩ := Nat.exists_eq_add_of_le hslow
  have hhigh : value / 2 ^ m < 2 ^ t := by simpa using div_pow_lt (n := t) hslow hv
  have hfront : seq .msbFirst 8 (p.val * 2 ^ t + value / 2 ^ m) =
      p.queue .msbFirst ++ seq .msbFirst t (value / 2 ^ m) := by
    rw [hbyte, seq_msb_append p.len hhigh, Acc.queue]
  simp only [packArith, ht, if_neg (not_lt.mpr hslow), Nat.add_sub_cancel_left]
  refine ⟨_, rfl, ⟨rfl, Nat.lt_succ_iff.mp (Nat.mod_lt m (by decide)), Nat.mod_lt _ (Nat.two_pow_pos _)⟩, ?_⟩
  rw [Acc.queue, seq_mod, bytesBits_cons, seq_byteOf, hfront, List.append_assoc, ← seq_msb_bytes, seq_mod,
    List.append_assoc, ← seq_msb_split]

/-- The closed form of the slow path under LSB_FIRST: the low bits of the value complete the byte of P, and the others
are whole bytes and then the bits left pending (R115). -/
theorem packArith_lsb_adds {bits value : Nat} {p : Acc} (hp : p.Boundary) (hslow : 8 - p.len ≤ bits)
    (hv : value < 2 ^ bits) :
    Adds .lsbFirst (some (packArith .lsbFirst bits value p)) p (seq .lsbFirst bits value) := by
  have hbyte : 8 = p.len + (8 - p.len) := by have := hp.len; omega
  generalize ht : 8 - p.len = t at hslow hbyte
  obtain ⟨m, rfl⟩ := Nat.exists_eq_add_of_le hslow
  have hrest : value / 2 ^ t / 2 ^ (8 * (m / 8)) < 2 ^ (m % 8) := by
    rw [Nat.div_div_eq_div_mul, ← pow_add, show t + 8 * (m / 8) = t + m - m % 8 by omega]
    exact div_pow_lt (by omega) hv
  have hfront : seq .lsbFirst 8 (p.val + value % 2 ^ t * 2 ^ p.len) =
      p.queue .lsbFirst ++ seq .lsbFirst t value := by
    rw [hbyte, seq_lsb_append t _ hp.clean, seq_mod, Acc.queue]
  simp only [packArith, ht, if_neg (not_lt.mpr hslow), Nat.add_sub_cancel_left]
  refine ⟨_, rfl, ⟨rfl, Nat.lt_succ_iff.mp (Nat.mod_lt m (by decide)), hrest⟩, ?_⟩
  rw [Acc.queue, bytesBits_cons, seq_byteOf, hfront, List.append_assoc, ← seq_lsb_bytes, List.append_assoc,
    ← seq_lsb_split]

/-- Settles O29: on the fast path both are one push; on the slow path `pack` and the closed form add the same bits, and
these determine what is emitted and what is left in P. -/
theorem packIsItsClosedForm : Obligations.PackIsItsClosedForm := by
  intro o c bits value p hcarrier hlen hclean hbits hv
  have hp : p.Boundary := ⟨hcarrier, hlen, hclean⟩
  rcases lt_or_ge bits (8 - p.len) with hfast | hslow
  · exact pack_eq_packArith_of_lt o c hp hfast hv
  · have hadds := pack_adds o hp hbits hv
    cases o with
    | msbFirst => exact hadds.unique (packArith_msb_adds hp hslow hv)
    | lsbFirst => exact hadds.unique (packArith_lsb_adds hp hslow hv)

end Sys2Proof.Machine
end

section
/-! WRITE_SIGNED: what its validation rejects (R125, R127), the packed value and its sign bit (R126), and its agreement
with WRITE on the non-negative values of its range (R129). -/

namespace Sys2Proof.Machine

/-! The packed value. -/

theorem packSigned_eq_emod (bits : Nat) (value : Int) : (packSigned bits value : Int) = value % 2 ^ bits :=
  Int.toNat_of_nonneg (Int.emod_nonneg value (by positivity))

/-- A non-negative value below 2^bits is its own packed value (R126). -/
theorem packSigned_of_nonneg {bits : Nat} {value : Int} (h0 : 0 ≤ value) (hlt : value < 2 ^ bits) :
    (packSigned bits value : Int) = value := by
  rw [packSigned_eq_emod, Int.emod_eq_of_lt h0 hlt]

/-- A negative value not below -2^bits is packed as itself and 2^bits (R126). -/
theorem packSigned_of_neg {bits : Nat} {value : Int} (hlow : -(2 ^ bits) ≤ value) (hneg : value < 0) :
    (packSigned bits value : Int) = value + 2 ^ bits := by
  rw [packSigned_eq_emod, ← Int.add_emod_right, Int.emod_eq_of_lt (by omega) (by omega)]

theorem two_pow_pred_add_self {bits : Nat} (h1 : 1 ≤ bits) : (2 : Int) ^ (bits - 1) + 2 ^ (bits - 1) = 2 ^ bits := by
  exact_mod_cast Nat.two_pow_pred_add_two_pow_pred h1

/-- Values of the signed range of `bits` bits are packed as themselves, or as themselves and 2^bits (R126). -/
theorem packSigned_of_range {bits : Nat} {value : Int} (h1 : 1 ≤ bits) (hlow : -(2 ^ (bits - 1)) ≤ value)
    (hhigh : value < 2 ^ (bits - 1)) :
    (packSigned bits value : Int) = if value < 0 then value + 2 ^ bits else value := by
  have hpow := two_pow_pred_add_self h1
  split
  next hneg => exact packSigned_of_neg (by omega) hneg
  next hnonneg => exact packSigned_of_nonneg (by omega) (by omega)

/-- The bits of the packed value below the sign bit (R126). -/
theorem packSigned_mod_two_pow_pred (bits : Nat) (value : Int) :
    ((packSigned bits value % 2 ^ (bits - 1) : Nat) : Int) = value % 2 ^ (bits - 1) := by
  push_cast
  rw [packSigned_eq_emod, Int.emod_emod_of_dvd value (pow_dvd_pow 2 (Nat.sub_le bits 1))]

/-- Bit `bits - 1` of the packed value is the sign: the packed value of a negative value is in the upper half (R126). -/
theorem packSigned_testBit_sign {bits : Nat} {value : Int} (h1 : 1 ≤ bits) (hlow : -(2 ^ (bits - 1)) ≤ value)
    (hhigh : value < 2 ^ (bits - 1)) : (packSigned bits value).testBit (bits - 1) = decide (value < 0) := by
  have hpacked := packSigned_of_range h1 hlow hhigh
  have hpow := two_pow_pred_add_self h1
  by_cases hneg : value < 0
  · have hupper : 2 ^ (bits - 1) ≤ packSigned bits value := by zify; rw [hpacked, if_pos hneg]; omega
    rw [decide_eq_true hneg]
    exact Nat.testBit_of_two_pow_le_and_two_pow_add_one_gt hupper (by
      rw [Nat.sub_add_cancel h1]; exact packSigned_lt bits value)
  · have hlower : packSigned bits value < 2 ^ (bits - 1) := by zify; rwa [hpacked, if_neg hneg]
    rw [decide_eq_false hneg, Nat.testBit_lt_two_pow hlower]

theorem seq_getElem? (o : Order) {n i : Nat} (x : Nat) (h : i < n) :
    (seq o n x)[i]? = some (x.testBit (bitIndex o n i)) := by
  rw [List.getElem?_eq_getElem (by simpa using h), seq_getElem]

/-- Settles O32: the sign bit is bit `bits - 1`, which stands at index 0 under MSB_FIRST and at index `bits - 1` under
LSB_FIRST. -/
theorem signBitStandsFirstOrLast : Obligations.SignBitStandsFirstOrLast := by
  intro bits value h1 hlow hhigh
  have hsign := packSigned_testBit_sign h1 hlow hhigh
  refine ⟨packSigned_of_range h1 hlow hhigh, packSigned_mod_two_pow_pred bits value, ?_, ?_⟩
  · rw [List.head?_eq_getElem?, seq_getElem? _ _ (by omega), bitIndex_msb, Nat.sub_zero, hsign]
  · rw [List.getLast?_eq_getElem?, seq_length, seq_getElem? _ _ (by omega), bitIndex_lsb, hsign]

/-! Agreement with WRITE. -/

/-- On a non-negative value of the signed range both validations accept and both pack the value itself (R129). -/
theorem writeSigned_eq_writeUnsigned {c : Carrier} {bits value : Nat} (s : State) (h1 : 1 ≤ bits)
    (hc : bits ≤ c.width) (hhigh : (value : Int) < 2 ^ (bits - 1)) :
    writeSigned c bits value s = writeUnsigned c bits value s := by
  have hlt : (value : Int) < 2 ^ bits := by have := two_pow_pred_add_self h1; omega
  have hpack : packSigned bits value = value := by exact_mod_cast packSigned_of_nonneg (by omega) hlt
  have hbits : value < 2 ^ bits := by exact_mod_cast hlt
  have hsigned : fitsSigned c bits value = true := fitsSigned_of_range h1 hc (by omega) hhigh
  have hunsigned : fitsUnsigned c bits value = true :=
    (fitsUnsigned_iff (hbits.trans_le (Nat.pow_le_pow_right Nat.two_pos hc))).mpr ⟨hc, hbits⟩
  rw [writeSigned_eq, writeUnsigned_eq, hsigned, hunsigned, hpack]

/-- The same for the operand as the command carries it: a non-negative operand reads alike signed and unsigned (R65). -/
theorem writeSigned_toInt_eq_writeUnsigned_toNat {c : Carrier} {bits : Nat} (s : State) (h1 : 1 ≤ bits)
    (v : BitVec c.width) (hc : bits ≤ c.width) (h0 : 0 ≤ v.toInt) (hhigh : v.toInt < 2 ^ (bits - 1)) :
    writeSigned c bits v.toInt s = writeUnsigned c bits v.toNat s := by
  have hread : v.toInt = v.toNat := BitVec.toInt_eq_toNat_of_lt (BitVec.toInt_pos_iff.mp h0)
  rw [hread] at hhigh ⊢
  exact writeSigned_eq_writeUnsigned s h1 hc hhigh

/-- Settles O33: each width is the shared body with its carrier. -/
theorem signedAgreesWithUnsignedWrite : Obligations.SignedAgreesWithUnsignedWrite := fun _ s h1 =>
  ⟨writeSigned_toInt_eq_writeUnsigned_toNat (c := .w8) s h1,
    writeSigned_toInt_eq_writeUnsigned_toNat (c := .w16) s h1,
    writeSigned_toInt_eq_writeUnsigned_toNat (c := .w32) s h1,
    writeSigned_toInt_eq_writeUnsigned_toNat (c := .w64) s h1,
    writeSigned_toInt_eq_writeUnsigned_toNat (c := .w128) s h1⟩

/-! The validation. -/

/-- What the validation of WRITE_SIGNED rejects: more bits than the carrier has, no bits, or a value outside the signed
range of fewer bits (R125, R127). -/
theorem fitsSigned_eq_false_iff {c : Carrier} {n : Count} {value : Int} :
    fitsSigned c n.toNat value = false ↔ c.width < n.toNat ∨ n = 0 ∨
      (n.toNat < c.width ∧ (value < -(2 ^ (n.toNat - 1)) ∨ 2 ^ (n.toNat - 1) ≤ value)) := by
  have hzero : n = 0 ↔ n.toNat = 0 := BitVec.toNat_inj.symm
  rw [fitsSigned, hzero]
  split_ifs with hwide hnone hout
  · exact iff_of_true rfl (.inl hwide)
  · exact iff_of_true rfl (.inr (.inl hnone))
  · exact iff_of_true rfl (.inr (.inr hout))
  · exact iff_of_false nofun (not_or.mpr ⟨hwide, not_or.mpr ⟨hnone, hout⟩⟩)

/-- Settles O31: the command's validation is that of its carrier. -/
theorem signedWriteRejectsWhatDoesNotFit : Obligations.SignedWriteRejectsWhatDoesNotFit := fun _ =>
  ⟨fun _ h => rejectedAsInvalid_of_not_fits ((fitsSigned_eq_false_iff (c := .w8)).mpr h),
    fun _ h => rejectedAsInvalid_of_not_fits ((fitsSigned_eq_false_iff (c := .w16)).mpr h),
    fun _ h => rejectedAsInvalid_of_not_fits ((fitsSigned_eq_false_iff (c := .w32)).mpr h),
    fun _ h => rejectedAsInvalid_of_not_fits ((fitsSigned_eq_false_iff (c := .w64)).mpr h),
    fun _ h => rejectedAsInvalid_of_not_fits ((fitsSigned_eq_false_iff (c := .w128)).mpr h)⟩

end Sys2Proof.Machine
end

section
/-! WRITE_UNARY0 and WRITE_UNARY1: how the run is chunked (R147), what a command adds to the stream (R149), and the run
of length 0 (R150). -/

namespace Sys2Proof.Machine

/-! Chunking. -/

/-- Chunking leaves at most one chunk of 64 bits for the last part (R147). -/
theorem sub_unaryChunks_le (n : Nat) : n - 64 * unaryChunks n ≤ 64 := by
  unfold unaryChunks
  omega

/-- As long as there are run bits, chunking leaves at least one of them for the last part (R147). -/
theorem unaryChunks_lt {n : Nat} (hn : 0 < n) : 64 * unaryChunks n < n := by
  unfold unaryChunks
  omega

/-- Settles O39: the chunks take whole 64s of all bits but one, so that one is left for the last part. -/
theorem unaryChunksLeaveOneToSixtyFour : Obligations.UnaryChunksLeaveOneToSixtyFour := by
  refine ⟨fun n hn => Nat.div_eq_of_lt (by omega), fun n hn => ?_⟩
  have hlt : 64 * unaryChunks n < n := unaryChunks_lt (by omega)
  exact ⟨rfl, Nat.sub_pos_of_lt hlt, sub_unaryChunks_le n, hlt.le⟩

/-! The bits of a unary command. -/

/-- A command whose plan is a unary run adds the run and its terminating bit (R145, R148, R149). -/
theorem writesBits_of_unaryPath {i : Instr} {fill : Bool} {n : Nat} (hfits : fits i = true)
    (hplan : ∀ s, plan s i = planOf (unaryPath s.order fill n s.part)) :
    WritesBits i (fun _ => List.replicate n fill ++ [!fill]) :=
  fun s hs hk => exec_streams hs hfits (hplan s) (unaryPath_adds s.order fill n hs.boundary) hk

/-- Settles O37: both commands plan a unary run, of one-bits and of zero-bits. -/
theorem unaryAddsRunAndTerminator : Obligations.UnaryAddsRunAndTerminator := fun _ =>
  ⟨writesBits_of_unaryPath (fill := true) rfl fun _ => rfl,
    writesBits_of_unaryPath (fill := false) rfl fun _ => rfl⟩

/-! The run of length 0. -/

/-- A datapath after one that emits nothing and leaves P as it is runs from that P. -/
theorem andThen_nothing (p : Acc) (f : Acc → Option Emission) : Emission.andThen (some ⟨[], p⟩) f = f p := by
  simp only [Emission.andThen]
  cases f p <;> rfl

/-- A run of length 0 has no chunk and no last part: its terminating bit is all that is written (R150). -/
theorem unaryPath_zero (o : Order) (fill : Bool) (p : Acc) :
    unaryPath o fill 0 p = writeBitPath o (!fill) p := by
  have hchunks : chunksPath o fill (unaryChunks 0) p = some ⟨[], p⟩ := rfl
  have hremainder : remainderPath o fill (0 - 64 * unaryChunks 0) p = some ⟨[], p⟩ := rfl
  rw [unaryPath, hchunks, andThen_nothing, hremainder, andThen_nothing]

/-- Settles O38: the datapath of a run of length 0 is that of WRITE_BIT, and none of the three commands is validated. -/
theorem emptyUnaryRunIsOneBit : Obligations.EmptyUnaryRunIsOneBit := by
  intro s
  have hbit (fill : Bool) :
      s.unlessFailed (s.runPath (unaryPath s.order fill 0 s.part)) = exec (.writeBit !fill) s := by
    rw [unaryPath_zero]
    rfl
  exact ⟨hbit true, hbit false⟩

end Sys2Proof.Machine
end

section
/-! BYTE_ALIGN and DISPOSE (R161 to R165): alignment adds the zero bits missing to the byte boundary, and DISPOSE drops
what is pending, which after an alignment is nothing. -/

namespace Sys2Proof.Machine

/-! BYTE_ALIGN. -/

/-- With nothing pending BYTE_ALIGN has no bit to write (R161, R162). -/
theorem byteAlign_of_plen_zero {s : State} (hs : s.failed = false) (hplen : s.plen = 0) :
    exec .byteAlign s = .next { s with rsps := s.rsps ++ [⟨.ok, 0, 0⟩] } := by
  have hloop : alignLoop s.order 8 s.part = some ⟨[], s.part⟩ := by
    simp [alignLoop, Acc.isEmpty, hplen]
  have hplan : plan s .byteAlign = some ⟨[], s.part, 0⟩ := congrArg planOf hloop
  rw [exec_of_plan hs rfl hplan, complete_nil, setPart_part, State.respond]

/-- The zero bits that BYTE_ALIGN adds: as many as are missing to the byte boundary (R161). -/
def State.padding (s : State) : List Bool := List.replicate ((8 - s.plen.toNat) % 8) false

theorem padding_length (s : State) : s.padding.length = (8 - s.plen.toNat) % 8 := List.length_replicate

/-- On a sink that answers `ok` BYTE_ALIGN completes and adds the padding to the stream (R161). -/
theorem byteAlign_streams {s : State} (hs : s.Ready) (hk : s.SinkOk 1) :
    ∃ t, exec .byteAlign s = .next t ∧ Streamed s t s.padding := by
  have hlen7 := hs.2.1
  refine exec_streams hs rfl rfl (alignLoop_adds s.order 8 hs.boundary (by omega)) fun j hj => hk j ?_
  rw [padding_length] at hj
  omega

/-- A BYTE_ALIGN in which no transaction fails emits the pending bits and the padding, and leaves nothing pending
(R161). -/
theorem byteAlign_flushes {s t : State} (hs : s.Ready) (h : exec .byteAlign s = .next t) (ht : t.failed = false) :
    t.plen = 0 ∧ ∃ bytes, t.log = s.log ++ bytes ∧ bytesBits s.order bytes = s.pending ++ s.padding := by
  have hlen7 := hs.2.1
  obtain ⟨htlen7, -⟩ := exec_keeps_inv (fun _ => hs.2) h ht
  have hmod : s.plen.toNat % 8 = s.plen.toNat := Nat.mod_eq_of_lt (Nat.lt_succ_of_le hlen7)
  have hadded : callBits s.order s.plen.toNat .byteAlign = s.padding := by
    simp [callBits, fits, opBits, hmod, State.padding]
  obtain ⟨bytes, hlog, hbits⟩ := exec_stream h ht (fun _ => hs.2) hmod.symm nofun
  rw [hadded] at hbits
  have hcount := congrArg List.length hbits
  simp only [List.length_append, bytesBits_length, pending_length, padding_length] at hcount
  have hplen : t.plen.toNat = 0 := by omega
  rw [State.pending, queue_of_len_zero t.order hplen, List.append_nil] at hbits
  exact ⟨BitVec.eq_of_toNat_eq hplen, bytes, hlog, hbits⟩

/-! The padded byte. -/

/-- The byte of `l` pending bits, packed as `x`, and then zeros: under MSB_FIRST the zeros are its low bits, under
LSB_FIRST its high ones (R161). -/
def paddedByte (o : Order) (l x : Nat) : Nat :=
  match o with
  | .msbFirst => x * 2 ^ (8 - l)
  | .lsbFirst => x

theorem paddedByte_lt (o : Order) {l x : Nat} (hl : l ≤ 8) (hx : x < 2 ^ l) : paddedByte o l x < 2 ^ 8 := by
  cases o with
  | msbFirst => simpa [paddedByte, Nat.add_sub_cancel' hl] using mul_pow_add_lt hx (Nat.two_pow_pos (8 - l))
  | lsbFirst => exact hx.trans_le (Nat.pow_le_pow_right Nat.two_pos hl)

/-- The bits of the padded byte are the pending ones and then zeros. -/
theorem seq_paddedByte (o : Order) {l x : Nat} (hl : l ≤ 8) (hx : x < 2 ^ l) :
    seq o 8 (paddedByte o l x) = seq o l x ++ List.replicate (8 - l) false := by
  have hzeros : seq o (8 - l) 0 = List.replicate (8 - l) false := seq_runPattern o false (8 - l)
  rw [← hzeros]
  cases o with
  | msbFirst => simpa [paddedByte, Nat.add_sub_cancel' hl] using seq_msb_append l (x := x) (Nat.two_pow_pos (8 - l))
  | lsbFirst => simpa [paddedByte, Nat.add_sub_cancel' hl] using seq_lsb_append (8 - l) 0 hx

/-- Settles O41: aligned, there is no bit to write; else the pending bits and the padding are one byte. -/
theorem byteAlignPadsWithZeros : Obligations.ByteAlignPadsWithZeros := by
  intro s hs
  obtain ⟨hf, hlen7, hclean⟩ := id hs
  refine ⟨byteAlign_of_plen_zero hf, fun hplen hk => ?_⟩
  have hpos : s.plen.toNat ≠ 0 := fun h => hplen (BitVec.eq_of_toNat_eq h)
  obtain ⟨t, ht, hstream⟩ := byteAlign_streams hs hk
  obtain ⟨hdone, hplen', hpval'⟩ := hstream.eq_of_bits
    (bytes := [byteOf (paddedByte s.order s.plen.toNat s.pval.toNat)]) (Nat.zero_le 7) Nat.one_pos (by
      rw [bytesBits_cons, seq_byteOf, seq_paddedByte s.order (by omega) hclean, bytesBits_nil, seq_zero,
        pending_eq, State.padding, Nat.mod_eq_of_lt (by omega), List.append_nil, List.append_nil])
  have hbyte : (byteOf (paddedByte s.order s.plen.toNat s.pval.toNat)).toNat =
      paddedByte s.order s.plen.toNat s.pval.toNat :=
    Nat.mod_eq_of_lt (paddedByte_lt s.order (by omega) hclean)
  exact ⟨t, _, ht, hdone, BitVec.eq_of_toNat_eq hplen', BitVec.eq_of_toNat_eq hpval',
    fun ho => by rw [hbyte, ho, paddedByte], fun ho => by rw [hbyte, ho, paddedByte]⟩

/-- Settles O42: the first BYTE_ALIGN leaves nothing pending, so the second has no bit to write. -/
theorem byteAlignIsIdempotent : Obligations.ByteAlignIsIdempotent := by
  intro s t hs h ht
  obtain ⟨hplen, -⟩ := byteAlign_flushes hs h ht
  exact byteAlign_of_plen_zero ht hplen

/-! DISPOSE. -/

/-- Settles O44: the plan has no transaction and an empty P. -/
theorem disposeDiscardsPendingBits : Obligations.DisposeDiscardsPendingBits :=
  fun _ hs => exec_of_plan (i := .dispose) hs rfl rfl

/-- Settles O45: BYTE_ALIGN completes and emits all that was pending and the padding, and DISPOSE leaves the sink log
as it is. -/
theorem alignThenDisposeLosesNothing : Obligations.AlignThenDisposeLosesNothing := by
  intro s hs hk
  obtain ⟨t, ht, hstream⟩ := byteAlign_streams hs hk
  obtain ⟨_, hdone, -⟩ := hstream.step
  obtain ⟨-, bytes, hlog, hbits⟩ := byteAlign_flushes hs ht hdone.failed
  refine ⟨t, _, ht, disposeDiscardsPendingBits t hdone.failed, ?_⟩
  calc bytesBits s.order t.log = bytesBits s.order s.log ++ bytesBits s.order bytes := by
        rw [hlog, bytesBits_append]
    _ = bytesBits s.order s.log ++ s.pending ++ s.padding := by rw [hbits, List.append_assoc]

end Sys2Proof.Machine
end

section
/-! The companion software beside the block (R175 to R190): the counting writer's total is the length of the stream, and
a record of valid calls writes the stream of the calls. -/

namespace Sys2Proof.Machine

/-! The stream of a call sequence on a block just reset. -/

/-- The stream of a sequence cut in two (R48). -/
theorem streamOfCalls_append (o : Order) (total : Nat) (is js : List Instr) :
    streamOfCalls o total (is ++ js) =
      streamOfCalls o total is ++ streamOfCalls o (total + (streamOfCalls o total is).length) js := by
  induction is generalizing total with
  | nil => rfl
  | cons i rest ih =>
    rw [List.cons_append, streamOfCalls_cons, streamOfCalls_cons, ih, List.append_assoc, List.length_append,
      Nat.add_assoc]

/-- The sink log of a block just reset and what is left pending are together the stream of the calls (R49). -/
theorem runAll_fresh {o : Order} {is : List Instr} {s t : State} (hs : s.Fresh o) (hd : Instr.dispose ∉ is)
    (h : runAll is s = .next t) (ht : t.failed = false) :
    bytesBits o t.log ++ t.pending = streamOfCalls o 0 is := by
  obtain ⟨ho, hplen, hpval, hf, htxns, -⟩ := hs
  obtain ⟨bytes, hlog, hbits, -⟩ := streamIsTheCallsInOrder o is s t ⟨ho, hplen, hpval, hf⟩ hd h ht
  have hempty : s.log = [] := by simp [State.log, Sink.log, htxns]
  rw [hlog, hempty, List.nil_append, hbits]

/-- A block just reset meets the invariant, and a call sequence keeps it. -/
theorem runAll_fresh_ready {o : Order} {is : List Instr} {s t : State} (hs : s.Fresh o) (h : runAll is s = .next t)
    (ht : t.failed = false) : t.Ready :=
  have ⟨ho, hplen, hpval, hf, _⟩ := hs
  have hnew : s.NewLife o := ⟨ho, hplen, hpval, hf⟩
  ⟨ht, runAll_keeps_inv hnew.empty.1 h ht⟩

/-- Two blocks just reset with one ORDER that are written the same stream end alike, if no transaction fails. -/
theorem fresh_eq_of_stream {o : Order} {is js : List Instr} {s s' t u : State} (hs : s.Fresh o) (hs' : s'.Fresh o)
    (hi : Instr.dispose ∉ is) (hj : Instr.dispose ∉ js) (hstream : streamOfCalls o 0 is = streamOfCalls o 0 js)
    (ht : runAll is s = .next t) (htf : t.failed = false) (hu : runAll js s' = .next u) (huf : u.failed = false) :
    t.log = u.log ∧ t.plen = u.plen ∧ t.pval = u.pval := by
  obtain ⟨-, tlen, tval⟩ := runAll_fresh_ready hs ht htf
  obtain ⟨-, ulen, uval⟩ := runAll_fresh_ready hs' hu huf
  have hsame : bytesBits o t.log ++ t.pending = bytesBits o u.log ++ u.pending :=
    (runAll_fresh hs hi ht htf).trans (hstream.trans (runAll_fresh hs' hj hu huf).symm)
  obtain ⟨hlog, hpending⟩ :=
    bytesBits_append_inj ((pending_length t).trans_le tlen) ((pending_length u).trans_le ulen) hsame
  have horder : t.order = u.order :=
    (runAll_order ht).trans (hs.1.trans (hs'.1.symm.trans (runAll_order hu).symm))
  exact ⟨hlog, registers_eq_of_pending tval uval horder hpending⟩

theorem runAll_append {is js : List Instr} {s t : State} (h : runAll (is ++ js) s = .next t) :
    ∃ u, runAll is s = .next u ∧ runAll js u = .next t := by
  induction is generalizing s with
  | nil => exact ⟨s, rfl, h⟩
  | cons i rest ih =>
    obtain ⟨v, hv, hrest⟩ := runAll_cons h
    obtain ⟨u, hu, hjs⟩ := ih hrest
    exact ⟨u, by simp [runAll, hv, hu], hjs⟩

/-- A call sequence on a block just reset that ends in BYTE_ALIGN leaves nothing pending (R161). -/
theorem plen_eq_zero_of_getLast?_byteAlign {o : Order} {is : List Instr} {s t : State} (hs : s.Fresh o)
    (h : runAll is s = .next t) (ht : t.failed = false) (hlast : is.getLast? = some .byteAlign) : t.plen = 0 := by
  obtain ⟨init, rfl⟩ := List.getLast?_eq_some_iff.mp hlast
  obtain ⟨u, hu, halign⟩ := runAll_append h
  obtain ⟨v, hv, hnil⟩ := runAll_cons halign
  obtain rfl := Host.Outcome.next.inj hnil
  exact (byteAlign_flushes (runAll_fresh_ready hs hu (not_failed_of_runAll halign ht)) hv ht).1

/-! The counting writer. -/

/-- The bits nominally written are as many as an operation adds to the stream (R176). -/
@[simp] theorem opBits_length (o : Order) (total : Nat) (i : Instr) :
    (opBits o total i).length = nominalBits total i := by
  cases i <;> simp [opBits, nominalBits]

/-- The status that the validation alone gives a call (R111, R125, R177). -/
def callStatus (i : Instr) : Status := if fits i then .ok else .invalidInput

/-- One call on a counting writer: the status of its validation, and the total grows by the call's bits (R176,
R177). -/
theorem countAll_cons {cw : Nat} {i : Instr} {rest : List Instr} {c d : Counter} {sts : List Status} (o : Order)
    (h : countAll cw (i :: rest) c = some (sts, d)) :
    inContract i = true ∧ ∃ later, sts = callStatus i :: later ∧
      countAll cw rest ⟨c.total + (callBits o c.total i).length⟩ = some (later, d) := by
  cases hc : c.issue cw i with
  | unmodelled => simp [countAll, hc] at h
  | done c' =>
    obtain ⟨hcontract, hfits, -, rfl⟩ := Counter.issue_done.mp hc
    simp only [countAll, hc, Option.map_eq_some_iff, Prod.mk.injEq] at h
    obtain ⟨⟨later, _⟩, hrest, rfl, rfl⟩ := h
    exact ⟨hcontract, later, by simp [callStatus, hfits], by simpa [callBits, hfits] using hrest⟩
  | error c' kind =>
    obtain ⟨hcontract, hfits, rfl, rfl⟩ := Counter.issue_error.mp hc
    simp only [countAll, hc, Option.map_eq_some_iff, Prod.mk.injEq] at h
    obtain ⟨⟨later, _⟩, hrest, rfl, rfl⟩ := h
    exact ⟨hcontract, later, by simp [callStatus, hfits], by simpa [callBits, hfits] using hrest⟩

/-- A counting writer takes calls of the contract only, answers each with the status of its validation, and its total
grows by the length of the stream (R176, R177, R180). -/
theorem countAll_total {cw : Nat} {is : List Instr} {c d : Counter} {sts : List Status} (o : Order)
    (h : countAll cw is c = some (sts, d)) :
    (∀ i ∈ is, inContract i = true) ∧ sts = is.map callStatus ∧
      d.total = c.total + (streamOfCalls o c.total is).length := by
  induction is generalizing c sts with
  | nil =>
    obtain ⟨rfl, rfl⟩ := Prod.mk.inj (Option.some.inj h)
    exact ⟨by simp, rfl, rfl⟩
  | cons i rest ih =>
    obtain ⟨hcontract, later, rfl, hrest⟩ := countAll_cons o h
    obtain ⟨hcontracts, rfl, htotal⟩ := ih hrest
    refine ⟨List.forall_mem_cons.mpr ⟨hcontract, hcontracts⟩, rfl, ?_⟩
    rw [htotal, streamOfCalls_cons, List.length_append, Nat.add_assoc]

/-- DISPOSE is no call of the write contract. -/
theorem dispose_not_mem_of_inContract {is : List Instr} (h : ∀ i ∈ is, inContract i = true) :
    Instr.dispose ∉ is :=
  fun hmem => Bool.false_ne_true (h _ hmem)

/-- A block on which no transaction fails answers a call with the status of its validation (R200, R206). -/
theorem exec_status {i : Instr} {s t : State} (h : exec i s = .next t) (ht : t.failed = false) :
    t.rsps.map Response.status = s.rsps.map Response.status ++ [callStatus i] := by
  obtain ⟨hs, -⟩ | ⟨-, hf, rfl⟩ | ⟨-, hf, q, -, rfl⟩ := exec_cases h
  · exact absurd ht (by simp [exec_failed h hs])
  · simp [callStatus, hf]
  · obtain ⟨k, -, -, hc⟩ | ⟨k, e, -, -, -, -, -, -, -, hc⟩ := complete_cases s q.txns q.part q.rdata
    · simp [hc, callStatus, hf]
    · simp [hc] at ht

theorem runAll_statuses {is : List Instr} {s t : State} (h : runAll is s = .next t) (ht : t.failed = false) :
    t.rsps.map Response.status = s.rsps.map Response.status ++ is.map callStatus := by
  induction is generalizing s with
  | nil =>
    obtain rfl := Host.Outcome.next.inj h
    simp
  | cons i rest ih =>
    obtain ⟨u, hu, hrest⟩ := runAll_cons h
    rw [ih hrest, exec_status hu (not_failed_of_runAll hrest ht), List.append_assoc, List.map_cons,
      List.singleton_append]

/-- Settles O55: total and sink log both measure the stream of the calls, and without a sink failure the status of a
call is that of its validation on both sides. -/
theorem countingTotalIsBitsOfBlock : Obligations.CountingTotalIsBitsOfBlock := by
  intro o cw is s t c sts hs hcount hrun ht
  obtain ⟨hcontract, rfl, htotal⟩ := countAll_total o hcount
  have hlen := congrArg List.length (runAll_fresh hs (dispose_not_mem_of_inContract hcontract) hrun ht)
  rw [List.length_append, bytesBits_length, pending_length] at hlen
  have hlaw : c.total = 8 * t.log.length + t.plen.toNat :=
    (htotal.trans (Nat.zero_add _)).trans hlen.symm
  obtain ⟨-, -, -, -, -, hrsps⟩ := id hs
  refine ⟨hlaw, by simp [runAll_statuses hrun ht, hrsps], fun hlast => ?_⟩
  simpa [plen_eq_zero_of_getLast?_byteAlign hs hrun ht hlast] using hlaw

/-! The stream of a record. -/

/-- The same call k times over writes its bits k times over. -/
theorem streamOfCalls_replicate {o : Order} {i : Instr} {m : Nat} {b : Bool}
    (h : ∀ total, callBits o total i = List.replicate m b) (total k : Nat) :
    streamOfCalls o total (List.replicate k i) = List.replicate (k * m) b := by
  induction k generalizing total with
  | zero => simp [streamOfCalls]
  | succ k ih =>
    rw [List.replicate_succ, streamOfCalls_cons, ih, h, List.replicate_append_replicate, Nat.succ_mul, Nat.add_comm]

theorem streamOfCalls_singleton (o : Order) (total : Nat) (i : Instr) :
    streamOfCalls o total [i] = callBits o total i := List.append_nil _

theorem fits_stepCommand (hw : Carrier) (st : Count × BitVec hw.width) :
    fits (stepCommand hw st) = fitsUnsigned hw st.1.toNat st.2.toNat := by
  cases hw <;> rfl

/-- The record of m run bits, on a carrier that holds them, is replayed as a WRITE of the run (R146, R185). -/
theorem callBits_runRecord (o : Order) (total : Nat) {c : Carrier} (fill : Bool) {m : Nat} (hm : m ≤ c.width) :
    callBits o total (runRecord c fill m).toInstr = List.replicate m fill := by
  have hwidth : c.width ≤ 128 := by cases c <;> decide
  have hcount : (BitVec.ofNat 32 m).toNat = m := Nat.mod_eq_of_lt (by omega)
  have hvalue : (BitVec.ofNat c.width (runPattern fill m)).toNat = runPattern fill m :=
    Nat.mod_eq_of_lt ((runPattern_lt fill m).trans_le (Nat.pow_le_pow_right Nat.two_pos hm))
  have hrecord : (runRecord c fill m).toInstr =
      stepCommand c (BitVec.ofNat 32 m, BitVec.ofNat c.width (runPattern fill m)) := rfl
  have hfits : fits (runRecord c fill m).toInstr = true := by
    rw [hrecord, fits_stepCommand, fitsUnsigned_iff (BitVec.isLt _), hcount, hvalue]
    exact ⟨hm, runPattern_lt fill m⟩
  rw [callBits, if_pos hfits, hrecord, opBits_stepCommand, hcount, hvalue, seq_runPattern]

theorem le_unaryCarrier_width {m : Nat} (hm : m ≤ 64) : m ≤ (unaryCarrier m).width := by
  unfold unaryCarrier
  split
  · exact Nat.le_succ_of_le ‹_›
  · exact hm

/-- The records of the last part of a unary run, m bits: none for m = 0, else one WRITE (R146, R185). -/
def remainderRecords (fill : Bool) (m : Nat) : List WriteRecord :=
  if m = 0 then [] else [runRecord (unaryCarrier m) fill m]

/-- The records of a unary call are those of its chunks, of its last part and of its terminating bit (R145, R147). -/
theorem unaryRecords_eq (fill : Bool) (n : Nat) :
    unaryRecords fill n = List.replicate (unaryChunks n) (runRecord .w64 fill 64) ++
      remainderRecords fill (n - 64 * unaryChunks n) ++ [.bit (!fill)] := rfl

theorem streamOfCalls_remainderRecords (o : Order) (total : Nat) (fill : Bool) {m : Nat} (hm : m ≤ 64) :
    streamOfCalls o total ((remainderRecords fill m).map WriteRecord.toInstr) = List.replicate m fill := by
  unfold remainderRecords
  split
  next hzero => rw [hzero]; rfl
  next =>
    exact (streamOfCalls_singleton ..).trans (callBits_runRecord o total fill (le_unaryCarrier_width hm))

/-- The records of a unary call write its run and the terminating bit (R145 to R149, R185). -/
theorem streamOfCalls_unaryRecords (o : Order) (total : Nat) (fill : Bool) (n : Nat) :
    streamOfCalls o total ((unaryRecords fill n).map WriteRecord.toInstr) = List.replicate n fill ++ [!fill] := by
  have hle : unaryChunks n * 64 ≤ n := by unfold unaryChunks; omega
  have hchunk : ∀ total, callBits o total (runRecord .w64 fill 64).toInstr = List.replicate 64 fill :=
    fun total => callBits_runRecord o total fill le_rfl
  have hbit : ∀ total, streamOfCalls o total [(WriteRecord.bit (!fill)).toInstr] = [!fill] := fun _ => rfl
  rw [unaryRecords_eq, List.map_append, List.map_append, List.map_replicate, List.map_singleton,
    streamOfCalls_append, streamOfCalls_append, streamOfCalls_replicate hchunk,
    streamOfCalls_remainderRecords o _ fill (sub_unaryChunks_le n), hbit, List.replicate_append_replicate,
    Nat.mul_comm 64, Nat.add_sub_cancel' hle]

/-- The records of a call of the contract that fits write the bits of the call (R185, R188). -/
theorem streamOfCalls_recordsOf (o : Order) (total : Nat) {i : Instr} (hf : fits i = true)
    (hc : inContract i = true) :
    streamOfCalls o total ((recordsOf total i).map WriteRecord.toInstr) = callBits o total i := by
  cases i with
  | writeUnary0 n => exact streamOfCalls_unaryRecords o total true n.toNat
  | writeUnary1 n => exact streamOfCalls_unaryRecords o total false n.toNat
  | byteAligned => rfl
  | byteAlign =>
    rw [recordsOf, List.map_replicate, streamOfCalls_replicate (m := 1) (b := false) fun _ => rfl, Nat.mul_one]
    rfl
  | unwritten => cases hc
  | dispose => cases hc
  | _ => exact streamOfCalls_singleton ..

theorem toInstr_ne_dispose (rec : WriteRecord) : rec.toInstr ≠ .dispose := by
  cases rec with
  | bit b => nofun
  | unsigned c n v => exact stepCommand_ne_dispose c (n, v)
  | signed c n v => cases c <;> nofun
  | bytes buf => nofun

/-! The recorder. -/

/-- One call on a recorder: it is accepted, its records are appended and the total grows (R185). -/
theorem recordAll_cons {cw : Nat} {i : Instr} {rest : List Instr} {r r' : Recorder}
    (h : recordAll cw (i :: rest) r = some r') :
    inContract i = true ∧
      recordAll cw rest ⟨r.total + nominalBits r.total i, r.log ++ recordsOf r.total i⟩ = some r' := by
  cases hr : r.issue cw i with
  | unmodelled => simp [recordAll, hr] at h
  | error r1 kind => exact absurd hr Recorder.issue_ne_error
  | done r1 =>
    obtain ⟨hcontract, -, rfl⟩ := Recorder.issue_done.mp hr
    exact ⟨hcontract, by simpa [recordAll, hr] using h⟩

/-- A recorder of valid calls appends records that write the stream of the calls (R185, R188). -/
theorem recordAll_stream {cw : Nat} {is : List Instr} {r r' : Recorder} (o : Order)
    (hf : ∀ i ∈ is, fits i = true) (h : recordAll cw is r = some r') :
    (∀ i ∈ is, inContract i = true) ∧ ∃ records, r'.log = r.log ++ records ∧
      streamOfCalls o r.total (records.map WriteRecord.toInstr) = streamOfCalls o r.total is := by
  induction is generalizing r with
  | nil =>
    obtain rfl := Option.some.inj h
    exact ⟨by simp, [], by simp, rfl⟩
  | cons i rest ih =>
    obtain ⟨hfi, hfrest⟩ := List.forall_mem_cons.mp hf
    obtain ⟨hcontract, hrest⟩ := recordAll_cons h
    obtain ⟨hcontracts, records, hlog, hstream⟩ := ih hfrest hrest
    refine ⟨List.forall_mem_cons.mpr ⟨hcontract, hcontracts⟩, recordsOf r.total i ++ records,
      by rw [hlog, List.append_assoc], ?_⟩
    have hlen : (callBits o r.total i).length = nominalBits r.total i := by simp [callBits, hfi]
    rw [List.map_append, streamOfCalls_append, streamOfCalls_recordsOf o r.total hfi hcontract, hlen, hstream,
      streamOfCalls_cons, hlen]

/-- Settles O56: the record writes the stream of the calls, and blocks just reset that are written one stream end
alike. -/
theorem playbackEqualsDirectCalls : Obligations.PlaybackEqualsDirectCalls := by
  intro o cw is r s1 s2 s3 t1 t2 t3 hs1 hs2 hs3 hfits hrecord hplay1 hplay2 hrun ht3
  obtain ⟨hcontract, records, hlog, hstream⟩ := recordAll_stream o hfits hrecord
  obtain rfl : r.log = records := hlog
  have hrecords : Instr.dispose ∉ r.log.map WriteRecord.toInstr := by simp [toInstr_ne_dispose]
  have hplayed : ∀ {s t : State}, s.Fresh o → r.playback issueBlock s = .done t →
      t.log = t3.log ∧ t.plen = t3.plen ∧ t.pval = t3.pval := fun {s t} hs hplay => by
    obtain ⟨-, -, -, hsf, -⟩ := id hs
    obtain ⟨ht, -, htf⟩ := runAll_of_issueUntilError hsf hplay
    exact fresh_eq_of_stream hs hs3 hrecords (dispose_not_mem_of_inContract hcontract) hstream ht htf hrun ht3
  obtain ⟨hlog1, hplen1, hpval1⟩ := hplayed hs1 hplay1
  obtain ⟨hlog2, hplen2, hpval2⟩ := hplayed hs2 hplay2
  exact ⟨hlog1.trans hlog2.symm, hlog1, hplen1, hpval1, hplen2, hpval2⟩

/-! Deferred validation. -/

/-- The causes of InvalidInput that a legal command can have are those its validation rejects (R111, R125, R201). -/
theorem invalidCause_iff {i : Instr} : InvalidCause i ↔ fits i = false := by
  cases i with
  | writeU8 n v => exact (fitsUnsigned_eq_false_iff (c := .w8) v.isLt).symm
  | writeU16 n v => exact (fitsUnsigned_eq_false_iff (c := .w16) v.isLt).symm
  | writeU32 n v => exact (fitsUnsigned_eq_false_iff (c := .w32) v.isLt).symm
  | writeU64 n v => exact (fitsUnsigned_eq_false_iff (c := .w64) v.isLt).symm
  | writeU128 n v => exact (fitsUnsigned_eq_false_iff (c := .w128) v.isLt).symm
  | writeI8 n v => exact (fitsSigned_eq_false_iff (c := .w8)).symm
  | writeI16 n v => exact (fitsSigned_eq_false_iff (c := .w16)).symm
  | writeI32 n v => exact (fitsSigned_eq_false_iff (c := .w32)).symm
  | writeI64 n v => exact (fitsSigned_eq_false_iff (c := .w64)).symm
  | writeI128 n v => exact (fitsSigned_eq_false_iff (c := .w128)).symm
  | _ => exact iff_of_false id nofun

/-- A call that does not fit is one value, recorded as itself (R184, R185). -/
theorem recordsOf_of_not_fits (total : Nat) {i : Instr} (h : fits i = false) :
    (recordsOf total i).map WriteRecord.toInstr = [i] := by
  cases i with
  | writeUnary0 n => cases h
  | writeUnary1 n => cases h
  | byteAligned => cases h
  | byteAlign => cases h
  | unwritten => cases h
  | dispose => cases h
  | _ => rfl

/-- The block answers a call that does not fit with INVALID_INPUT and has no other effect (R206). -/
theorem issueBlock_of_not_fits {i : Instr} {s : State} (hf : fits i = false) (hs : s.failed = false) :
    issueBlock s i = .error { s with rsps := s.rsps ++ [⟨.invalidInput, 0, 0⟩] } .invalidInput := by
  simp [issueBlock, rejectedAsInvalid_of_not_fits hf s hs, State.lastStatus]

/-- Settles O57: recording asks only for room in the total, and the record of a call that does not fit is that call,
which the block rejects. -/
theorem recorderDefersValidation : Obligations.RecorderDefersValidation := by
  refine ⟨fun cw r i hcontract hroom => ⟨_, Recorder.issue_done.mpr ⟨hcontract, hroom, rfl⟩,
    List.prefix_append .., rfl⟩, fun cw i s r hinvalid hs hrecord => ?_⟩
  have hf := invalidCause_iff.mp hinvalid
  obtain ⟨-, hrest⟩ := recordAll_cons hrecord
  obtain rfl := Option.some.inj hrest
  have hlog : (Recorder.fresh.log ++ recordsOf Recorder.fresh.total i).map WriteRecord.toInstr = [i] :=
    recordsOf_of_not_fits 0 hf
  rw [Recorder.playback, hlog, issueUntilError, issueBlock_of_not_fits hf hs]

end Sys2Proof.Machine
end

section
/-! The errors (R200 to R209): while FAILED = 1 every word is refused; INVALID_INPUT is the answer to a validation that
fails and to a reserved encoding and has no other effect; a sink failure is the end of a plan with a transaction. -/

namespace Sys2Proof.Machine

/-! The refusal while FAILED = 1. -/

theorem exec_of_failed {s : State} (hs : s.failed = true) (i : Instr) : exec i s = .next s.refuseFailed := by
  simp [exec_eq, answerWith, hs]

theorem rejectReserved_of_failed {s : State} (hs : s.failed = true) : s.rejectReserved = s.refuseFailed := by
  simp [State.rejectReserved, hs]

/-- The refusal ranks above all else, for legal and for reserved words (R205, R208). -/
theorem runWord_of_failed {s : State} (hs : s.failed = true) (w : CmdWord) (payload : List Byte) :
    runWord w payload s = .next s.refuseFailed := by
  unfold runWord
  split
  · exact exec_of_failed hs _
  · rw [rejectReserved_of_failed hs]

/-- Settles O7: the step runs the word, which is refused; and of the other ways a step can go, those that clear FAILED
fetch a reset event. -/
theorem failedBlockRefusesEveryWord : Obligations.FailedBlockRefusesEveryWord := by
  refine ⟨fun s w payload rest hs hin hlen => ?_, fun s t h hno hs => ?_⟩
  · rw [step_command hin hlen, runWord_of_failed (s := { s with inputs := rest }) hs]
    rfl
  · obtain rfl | ⟨o, rest, -, hf, -⟩ | ⟨w, payload, rest, -, hrun⟩ | ⟨o, rest, -, -, -, -, -, -, hf, -⟩ :=
      step_cases h
    · exact hs
    · exact absurd hf (hno o rest)
    · rw [runWord_of_failed (s := { s with inputs := rest }) hs] at hrun
      obtain rfl := Host.Outcome.next.inj hrun
      exact hs
    · exact absurd hf (hno o rest)

/-! INVALID_INPUT. -/

/-- Completing a command is answered OK or SINK_FAILURE, never INVALID_INPUT (R200). -/
theorem complete_status_ne_invalidInput {s : State} {ts : List (List Byte)} {p : Acc} {rdata : BitVec 12}
    {r : Response} (hr : (s.complete ts p rdata).rsps = s.rsps ++ [r]) : r.status ≠ .invalidInput := by
  obtain ⟨k, -, -, hc⟩ | ⟨k, e, -, -, -, -, -, -, -, hc⟩ := complete_cases s ts p rdata
  · obtain rfl : _ = r := by simpa [hc] using hr
    nofun
  · obtain rfl : _ = r := by simpa [hc] using hr
    nofun

/-- A command is answered INVALID_INPUT exactly if FAILED = 0 and its validation fails (R201, R205). -/
theorem exec_invalidInput_iff {i : Instr} {s t : State} {r : Response} (h : exec i s = .next t)
    (hr : t.rsps = s.rsps ++ [r]) : r.status = .invalidInput ↔ s.failed = false ∧ fits i = false := by
  obtain ⟨hs, rfl⟩ | ⟨hs, hf, rfl⟩ | ⟨hs, hf, q, -, rfl⟩ := exec_cases h
  · obtain rfl : _ = r := by simpa using hr
    simp [hs]
  · obtain rfl : _ = r := by simpa using hr
    simp [hs, hf]
  · simp [hf, complete_status_ne_invalidInput hr]

/-- A word answered INVALID_INPUT did nothing but give that answer (R206). -/
theorem eq_takeInvalidInput_of_status {w : CmdWord} {payload : List Byte} {s t : State} {r : Response}
    (h : runWord w payload s = .next t) (hr : t.rsps = s.rsps ++ [r]) (hstatus : r.status = .invalidInput) :
    t = s.takeInvalidInput := by
  obtain ⟨i, -, hi⟩ | ⟨-, -, rfl⟩ := runWord_cases h
  · obtain ⟨hs, hf⟩ := (exec_invalidInput_iff hi hr).mp hstatus
    exact Host.Outcome.next.inj (hi.symm.trans (rejectedAsInvalid_of_not_fits hf s hs))
  · unfold State.rejectReserved at hr ⊢
    split at hr
    · obtain rfl : _ = r := by simpa using hr
      cases hstatus
    · next hs => exact if_neg hs

/-- Settles O46: a legal word is rejected exactly if its validation fails, a reserved one always, and the answer is
the only effect. -/
theorem invalidInputHasTheListedCauses : Obligations.InvalidInputHasTheListedCauses := by
  intro w payload s t r hlen hs h hr
  refine ⟨?_, fun hstatus => ?_⟩
  · rw [← reservedEncodingsAreTheListed w payload hlen]
    obtain ⟨i, hd, hi⟩ | ⟨x, hd, rfl⟩ := runWord_cases h
    · simp [exec_invalidInput_iff hi hr, hs, hd, invalidCause_iff]
    · obtain rfl : _ = r := by simpa [State.rejectReserved, hs] using hr
      simp [hd]
  · obtain rfl := eq_takeInvalidInput_of_status h hr hstatus
    obtain rfl : _ = r := by simpa using hr
    exact ⟨rfl, rfl⟩

/-- Settles O47: the answer is the only effect, and a counting writer rejects what fails the block's validation. -/
theorem invalidInputLeavesNoTrace : Obligations.InvalidInputLeavesNoTrace := by
  refine ⟨fun w payload s t r h hr hstatus => eq_takeInvalidInput_of_status h hr hstatus,
    fun cw c c' i k h => ?_⟩
  obtain ⟨-, hf, hc, hk⟩ := Counter.issue_error.mp h
  exact ⟨hc, hk, invalidCause_iff.mpr hf⟩

/-! SINK_FAILURE: when a plan has a transaction that can fail. -/

/-- The transactions of a datapath and of a whole buffer present at least one byte each (R44, R138). -/
theorem nil_not_mem_plan_txns {i : Instr} {s : State} {q : Plan} (hq : plan s i = some q) : [] ∉ q.txns := by
  have hsingles {e : Option Emission} (h : planOf e = some q) : [] ∉ q.txns := by
    obtain ⟨e', -, rfl⟩ := Option.map_eq_some_iff.mp h
    simp
  cases i with
  | writeBytes buf =>
    simp only [plan] at hq
    split at hq
    · obtain rfl := Option.some.inj hq
      cases buf <;> simp [wholeBuffer]
    · exact hsingles hq
  | byteAligned | unwritten | dispose =>
    obtain rfl := Option.some.inj hq
    exact List.not_mem_nil
  | _ => exact hsingles hq

/-- A plan presents as many bytes as the pending bits and the bits nominally written complete (R114, R176). -/
theorem plan_bytes_length {i : Instr} {s : State} {q : Plan} (hs : s.Ready) (hf : fits i = true)
    (hq : plan s i = some q) :
    q.txns.flatten.length = (s.plen.toNat + nominalBits s.plen.toNat i) / 8 := by
  have hp := hs.boundary
  have hplen : s.plen.toNat ≤ 7 := hp.len
  by_cases hd : i = .dispose
  · subst hd
    obtain rfl := Option.some.inj hq
    exact (Nat.div_eq_of_lt (Nat.lt_succ_of_le hplen)).symm
  · obtain ⟨q', hq', hb, hbits⟩ := plan_adds hp (Nat.mod_eq_of_lt (Nat.lt_succ_of_le hplen)).symm hf hd
    obtain rfl := Option.some.inj (hq'.symm.trans hq)
    simpa using (counts_of_stream_eq hb.len hbits).1

/-- The commands of the table are those whose bits, with the pending ones, complete a byte (R203). -/
theorem sinkFailureCause_iff {s : State} (hplen : s.plen.toNat ≤ 7) (i : Instr) :
    SinkFailureCause s i ↔ 8 ≤ s.plen.toNat + nominalBits s.plen.toNat i := by
  cases i with
  | writeBit b =>
    show s.plen = 7 ↔ 8 ≤ s.plen.toNat + 1
    bv_omega
  | writeBytes buf =>
    show buf ≠ [] ↔ 8 ≤ s.plen.toNat + 8 * buf.length
    rw [← List.length_pos_iff]
    omega
  | byteAlign =>
    show s.plen ≠ 0 ↔ 8 ≤ s.plen.toNat + (8 - s.plen.toNat % 8) % 8
    bv_omega
  | byteAligned | unwritten | dispose => exact iff_of_false id (by simp only [nominalBits]; omega)
  | _ => exact Iff.rfl

/-- A command of the table, and no other, plans a transaction (R203). -/
theorem plan_txns_ne_nil_iff {i : Instr} {s : State} {q : Plan} (hs : s.Ready) (hf : fits i = true)
    (hq : plan s i = some q) : q.txns ≠ [] ↔ SinkFailureCause s i := by
  have hempty : q.txns = [] ↔ q.txns.flatten.length = 0 := by
    rw [List.length_eq_zero_iff, List.flatten_eq_nil_iff, List.eq_nil_iff_forall_not_mem]
    exact ⟨fun h ts hts => absurd hts (h ts), fun h ts hts => nil_not_mem_plan_txns hq (h ts hts ▸ hts)⟩
  rw [Ne, hempty, plan_bytes_length hs hf hq, sinkFailureCause_iff hs.2.1]
  omega

/-- If the sink fails the first transaction, the command ends in SinkFailure (R202). -/
theorem complete_failed_of_first {s : State} {ts : List (List Byte)} {e : ErrInfo} {n : Nat} (hts : ts ≠ [])
    (hk : s.sink.answerAt 0 = .fail e n) (p : Acc) (rdata : BitVec 12) :
    (s.complete ts p rdata).failed = true := by
  obtain ⟨bytes, rest, rfl⟩ := List.exists_cons_of_ne_nil hts
  rw [answerAt_zero] at hk
  simp [State.complete, present, sinkWrite, hk]

/-- Settles O48: only a plan with a transaction can fail, and it does when the sink fails the first. -/
theorem sinkFailureNeedsATransaction : Obligations.SinkFailureNeedsATransaction := by
  intro i s t hs h
  refine ⟨fun ht => ?_, fun hcause hvalid e k hk => ?_⟩
  · obtain ⟨r, rfl⟩ | ⟨-, hf, q, hq, rfl⟩ := exec_responds_or_completes h
    · simp [hs.1] at ht
    · refine (plan_txns_ne_nil_iff hs hf hq).mp fun hnil => ?_
      simp [hnil, complete_nil, hs.1] at ht
  · have hf : fits i = true := by simpa [invalidCause_iff] using hvalid
    obtain ⟨q, hq, -⟩ := plan_boundary hs.boundary hf
    obtain rfl := Host.Outcome.next.inj ((exec_of_plan hs.1 hf hq).symm.trans h)
    exact complete_failed_of_first ((plan_txns_ne_nil_iff hs hf hq).mpr hcause) hk ..

/-! SINK_FAILURE: what it leaves behind. -/

/-- Settles O49: a response alone makes no transaction and leaves FAILED at 0, and a plan that was not completed ended
with the transaction that failed. -/
theorem sinkFailureLeavesItsTrace : Obligations.SinkFailureLeavesItsTrace := by
  intro i s t new h hs hnew hfail
  obtain ⟨r, rfl⟩ | ⟨-, -, q, -, rfl⟩ := exec_responds_or_completes h
  · obtain rfl : new = [] := by simpa using hnew
    simp [hs] at hfail
  · obtain ⟨k, -, ht, hc⟩ | ⟨k, e, pre, bytes, -, n, -, -, ht, hc⟩ := complete_cases s q.txns q.part q.rdata
    · obtain rfl : _ = new := by simpa [hc, ht] using hnew
      simp [hc, hs] at hfail
    · obtain rfl : _ = new := by simpa [hc, ht] using hnew
      have hlog : k.log = s.log ++ pre.flatten ++ bytes.take n := by
        simp [State.log, Sink.log, ht, List.flatMap_map]
      rw [hc]
      exact ⟨pre, bytes, e, n, rfl, rfl, hlog, rfl, rfl, rfl⟩

/-- A plan does not depend on the sink (R26). -/
theorem plan_sink (s : State) (k : Sink) (i : Instr) : plan { s with sink := k } i = plan s i := by
  cases i <;> rfl

/-- A command answered OK completed a plan with exactly the transactions it made. -/
theorem Completed.plan_eq {i : Instr} {s t : State} {ts : List (List Byte)} {rdata : BitVec 12}
    (hdone : Completed s t ts rdata) (h : exec i s = .next t) :
    fits i = true ∧ ∃ q, plan s i = some q ∧ q.txns = ts := by
  obtain ⟨hs, rfl⟩ | ⟨-, -, rfl⟩ | ⟨-, hf, q, hq, rfl⟩ := exec_cases h
  · exact absurd hs (by simpa using hdone.failed)
  · simpa using hdone.rsps
  · have htxns := (complete_txns_of_not_failed hdone.failed).symm.trans hdone.txns
    exact ⟨hf, q, hq, (List.map_injective_iff.mpr fun _ _ => Txn.accepted.inj) (List.append_cancel_left htxns)⟩

/-- If the sink fails the transaction number j, the command ends in SinkFailure with it (R202, R207). -/
theorem complete_eq_takeSinkFailure {s : State} {ts : List (List Byte)} {j : Nat} {bytes : List Byte} {e : ErrInfo}
    {n : Nat} {later : List SinkAnswer} (hj : ts[j]? = some bytes)
    (hk : s.sink.script = List.replicate j AnswerOf.ok ++ .fail e n :: later) (p : Acc) (rdata : BitVec 12) :
    s.complete ts p rdata = s.takeSinkFailure
      ⟨s.sink.txns ++ (ts.take j).map Txn.accepted ++ [.failed bytes e n], later, s.sink.draws⟩ e := by
  simp [State.complete, present_fail hj hk]

/-- Settles O51: the plan is the same on every sink, and the sink that fails its transaction number j takes no other
after it. -/
theorem firstFailedTransactionEndsCommand : Obligations.FirstFailedTransactionEndsCommand := by
  intro i s t ts rdata j bytes e k later hs _ h hdone hj
  obtain ⟨hf, q, hq, rfl⟩ := hdone.plan_eq h
  refine ⟨_, exec_of_plan hs hf ((plan_sink s _ i).trans hq), ?_⟩
  rw [complete_eq_takeSinkFailure hj rfl]
  exact ⟨rfl, rfl, rfl, rfl, rfl, rfl⟩

end Sys2Proof.Machine
end

section
/-! The reset event during a command (R225, R226): the command runs to its end, and of what it did only the
transactions that were answered stand, and what the sink has taken of the one in flight. -/

namespace Sys2Proof.Machine

/-- If all the transactions were answered, all of them stand. -/
theorem cutTxns_of_length_le {answered : Nat} (taken : Nat) {ts : List Txn} (h : ts.length ≤ answered) :
    cutTxns answered taken ts = ts := by
  simp [cutTxns, List.take_of_length_le h, List.drop_eq_nil_of_le h]

/-- The transaction in flight, whatever would have become of it, is abandoned with the bytes it presents. -/
theorem cutTxns_append_cons (taken : Nat) (pre : List Txn) (x : Txn) (post : List Txn) :
    ∃ bytes, (x = .accepted bytes ∨ (∃ e k, x = .failed bytes e k) ∨ (∃ k, x = .abandoned bytes k)) ∧
      cutTxns pre.length taken (pre ++ x :: post) = pre ++ [.abandoned bytes taken] := by
  cases x with
  | accepted bytes => exact ⟨bytes, .inl rfl, by simp [cutTxns]⟩
  | failed bytes e k => exact ⟨bytes, .inr (.inl ⟨e, k, rfl⟩), by simp [cutTxns]⟩
  | abandoned bytes k => exact ⟨bytes, .inr (.inr ⟨k, rfl⟩), by simp [cutTxns]⟩

/-- The log of a struck block grows by what stands of the command's transactions. -/
theorem strikeReset_log {s u : State} {new : List Txn} (h : u.sink.txns = s.sink.txns ++ new) (o : Order)
    (answered taken : Nat) :
    (s.strikeReset u o answered taken).log = s.log ++ (cutTxns answered taken new).flatMap Txn.taken := by
  simp [State.strikeReset, State.log, Sink.log, h]

/-- The step of a struck command: the block is as the reset during that command leaves it. -/
theorem step_struck {s u : State} {w : CmdWord} {payload : List Byte} {rest : List Input} {o : Order}
    {answered taken : Nat} (hs : s.inputs = .strike o answered taken :: (beatsOf w payload ++ rest))
    (hlen : payload.length = payloadCount w) (hrun : runWord w payload { s with inputs := rest } = .next u) :
    step s = .next (State.strikeReset { s with inputs := rest } u o answered taken) := by
  rw [step_strike hs]
  simp [stepStruck, fetch_beats hlen, runStruck, hrun]

/-- Settles O10: the step ends in the struck block, whose log is that of the transactions that stand. -/
theorem resetDuringCommandAbandonsIt : Obligations.ResetDuringCommandAbandonsIt := by
  intro s u w payload rest o answered taken new hs hlen hrun hnew
  have hlog := strikeReset_log (s := { s with inputs := rest }) hnew o answered taken
  refine ⟨_, step_struck hs hlen hrun, rfl, rfl, rfl, rfl, rfl, rfl, fun pre x post hsplit hpre => ?_,
    fun hall => ?_⟩
  · obtain ⟨bytes, hx, hcut⟩ := cutTxns_append_cons taken pre x post
    refine ⟨bytes, hx, hlog.trans ?_⟩
    subst hsplit hpre
    rw [hcut]
    simp [State.log]
  · rw [hlog, cutTxns_of_length_le taken hall]
    rfl

end Sys2Proof.Machine
end
